-- ==== Sys2Proof/Word.lean ====
section
/-! DEFINITION. The two bit-vector types of the core: the byte and the 32-bit word (spec 00_scope R7, R10). -/

namespace Sys2Proof

/-- A byte, a value in [0, 255] (R7). -/
abbrev Byte := BitVec 8

/-- A word: 32 bits, unsigned, arithmetic modulo 2^32 (R7, R10, R11). -/
abbrev Word := BitVec 32

end Sys2Proof
end

