-- ==== Sys2Proof/Config.lean ====
section
/-! DEFINITION. What an implementation of the core fixes or leaves open: the capacities (spec 00_scope R8), the constant
ID (10_state R22), and the engine's internal registers, whose contents between commands are a free value (R47). -/

namespace Sys2Proof

/-- The three capacity parameters of R8, in bytes. -/
structure Config.Caps where
  msgCap : Nat
  keyCap : Nat
  outCap : Nat
  deriving DecidableEq, Repr

/-- The reference configuration REF (R8). -/
def Config.ref : Config.Caps := { msgCap := 1048576, keyCap := 256, outCap := 8388608 }

/-- ALPHA_CAP, fixed (R8). -/
def Config.alphaCap : Nat := 256

/-- The constant in ID (R3, R22). -/
def Config.idValue : Word := 0x53484131#32

/-- A digest: five words H0..H4 (R7). -/
structure Digest where
  h0 : Word
  h1 : Word
  h2 : Word
  h3 : Word
  h4 : Word
  deriving DecidableEq, Repr, Inhabited

/-- The working registers a..e of one block (R43). -/
structure WorkRegs where
  a : Word
  b : Word
  c : Word
  d : Word
  e : Word
  deriving DecidableEq, Repr, Inhabited

/-- Which hash of a command is in progress (R45). -/
inductive HashPhase where
  | message
  | key
  | inner
  | outer
  deriving DecidableEq, Repr, Inhabited

/-- The engine's internal registers (R42 to R45): no host transaction and no rule reads what a command leaves in them
(R47). -/
structure Engine where
  acc : Digest
  work : WorkRegs
  w : Vector Word 80
  round : Fin 80
  block : Nat
  phase : HashPhase
  encPos : Nat
  deriving DecidableEq, Repr, Inhabited

/-- A free value (DESIGN CHOICE, log 6): what the engine's internal registers hold after an event that leaves them unspecified (R47,
R270). The argument numbers such events. -/
opaque Config.engineResidue : Nat → Engine

end Sys2Proof
end

