-- ==== Sys2Proof/Machine/Sha1.lean ====
section
/-! DEFINITION. The SHA-1 engine (spec 40_sha1 R110 to R129): word packer, padding, message schedule, round, block
compression, and the hash of a word array and of a byte string. Additions of words wrap at 2^32 (R110). -/

namespace Sys2Proof.Machine

/-- rotl_n for 1 ≤ n ≤ 31 (R111). -/
def rotl (n : Nat) (x : Word) : Word := (x <<< n) ||| (x >>> (32 - n))

/-- Four bytes as a word, the first in bits 31:24 (R112). -/
def beWord (b0 b1 b2 b3 : Byte) : Word := b0 ++ b1 ++ b2 ++ b3

/-- PackBE (R112): byte 4k in bits 31:24 of word k; the unused low bytes of the last word are 0. -/
def packBE : List Byte → List Word
  | [] => []
  | [b0] => [beWord b0 0#8 0#8 0#8]
  | [b0, b1] => [beWord b0 b1 0#8 0#8]
  | [b0, b1, b2] => [beWord b0 b1 b2 0#8]
  | b0 :: b1 :: b2 :: b3 :: rest => beWord b0 b1 b2 b3 :: packBE rest

/-- The four bytes of a word, most significant first (R113). -/
def beBytes (x : Word) : List Byte :=
  [x.extractLsb' 24 8, x.extractLsb' 16 8, x.extractLsb' 8 8, x.extractLsb' 0 8]

/-- UnpackBE: the first m bytes of a word array (R113). -/
def unpackBE (xs : List Word) (m : Nat) : List Byte := (xs.flatMap beBytes).take m

/-- N, the number of 16-word blocks of the padded array for a bit length L (R114). -/
def blockCount (len : Nat) : Nat := (len + 64) / 512 + 1

/-- Pad(X, L) (R115), with the length field truncated to one word (R116). -/
def padWords (xs : List Word) (len : Nat) : List Word :=
  let n := blockCount len
  let ys := xs ++ List.replicate (16 * n - xs.length) 0#32
  let ys := ys.modify (len / 32) (· ||| (1#32 <<< (31 - len % 32)))
  (ys.set (16 * n - 2) 0#32).set (16 * n - 1) (BitVec.ofNat 32 len)

/-- The initial values of the accumulators (R117). -/
def sha1Init : Digest where
  h0 := 0x67452301#32
  h1 := 0xEFCDAB89#32
  h2 := 0x98BADCFE#32
  h3 := 0x10325476#32
  h4 := 0xC3D2E1F0#32

/-- One more word in front of a schedule held newest first: W[t] from W[t-3], W[t-8], W[t-14], W[t-16] (R118). -/
def scheduleNext (ws : List Word) : Word :=
  rotl 1 (ws.getD 2 0#32 ^^^ ws.getD 7 0#32 ^^^ ws.getD 13 0#32 ^^^ ws.getD 15 0#32)

/-- n more words in front of a schedule held newest first (R118). -/
def scheduleGrow : Nat → List Word → List Word
  | 0, ws => ws
  | n + 1, ws => scheduleGrow n (scheduleNext ws :: ws)

/-- W[0..80) for a block of 16 words (R118). -/
def schedule (blk : List Word) : List Word := (scheduleGrow 64 blk.reverse).reverse

/-- "choose" (R119). -/
def choose (b c d : Word) : Word := (b &&& c) ||| (~~~b &&& d)

/-- Parity (R119). -/
def parity (b c d : Word) : Word := b ^^^ c ^^^ d

/-- "majority" (R119). -/
def majority (b c d : Word) : Word := (b &&& c) ||| (b &&& d) ||| (c &&& d)

/-- f_t (R119). -/
def roundFn (t : Nat) (b c d : Word) : Word :=
  if t < 20 then choose b c d
  else if t < 40 then parity b c d
  else if t < 60 then majority b c d
  else parity b c d

/-- K_t (R120). -/
def roundConst (t : Nat) : Word :=
  if t < 20 then 0x5A827999#32
  else if t < 40 then 0x6ED9EBA1#32
  else if t < 60 then 0x8F1BBCDC#32
  else 0xCA62C1D6#32

/-- T, the five-operand sum of round t (R121; the first operand is rotl_5(a), 90_conflicts C1). -/
def roundSum (t : Nat) (w : Word) (r : WorkRegs) : Word :=
  rotl 5 r.a + roundFn t r.b r.c r.d + r.e + w + roundConst t

/-- Round t with W[t] = w: all five registers written at once (R122). -/
def roundStep (t : Nat) (w : Word) (r : WorkRegs) : WorkRegs where
  a := roundSum t w r
  b := r.a
  c := rotl 30 r.b
  d := r.c
  e := r.d

/-- The rounds t, t+1, ... over the schedule words that are left, in increasing t (R123). -/
def runRounds : Nat → List Word → WorkRegs → WorkRegs
  | _, [], r => r
  | t, w :: ws, r => runRounds (t + 1) ws (roundStep t w r)

/-- The working registers at the start of a block (R123, 90_conflicts C2). -/
def loadWork (h : Digest) : WorkRegs where
  a := h.h0
  b := h.h1
  c := h.h2
  d := h.h3
  e := h.h4

/-- The accumulation at the end of a block (R124). -/
def accumulate (h : Digest) (r : WorkRegs) : Digest where
  h0 := h.h0 + r.a
  h1 := h.h1 + r.b
  h2 := h.h2 + r.c
  h3 := h.h3 + r.d
  h4 := h.h4 + r.e

/-- Compress(H, Yblk) (R123). -/
def compress (h : Digest) (blk : List Word) : Digest :=
  accumulate h (runRounds 0 (schedule blk) (loadWork h))

/-- The next n blocks of 16 words of a padded array, compressed in order (R126). -/
def compressBlocks : Nat → Digest → List Word → Digest
  | 0, h, _ => h
  | n + 1, h, ys => compressBlocks n (compress h (ys.take 16)) (ys.drop 16)

/-- SHA1Words(X, L) (R126). -/
def sha1Words (xs : List Word) (len : Nat) : Digest :=
  compressBlocks (blockCount len) sha1Init (padWords xs len)

/-- SHA1Digest(M) (R126). -/
def sha1Digest (m : List Byte) : Digest := sha1Words (packBE m) (8 * m.length)

/-- The five words H0..H4 of a digest as a word array. -/
def digestWords (h : Digest) : List Word := [h.h0, h.h1, h.h2, h.h3, h.h4]

/-- DigestBytes(H): the 20 bytes of a digest (R127). -/
def digestBytes (h : Digest) : List Byte := unpackBE (digestWords h) 20

end Sys2Proof.Machine
end

