-- ==== Sys2Proof/Machine/HmacSha1.lean ====
section
/-! DEFINITION. The HMAC-SHA1 wrapper (spec 41_hmac R160 to R167). -/

namespace Sys2Proof.Machine

/-- K1: the key, or its digest when it is longer than 64 bytes (R160, R161). -/
def compressKey (k : List Byte) : List Byte :=
  if 64 < k.length then digestBytes (sha1Digest k) else k

/-- K0: the key zero-padded to 64 bytes (R161). -/
def padKey (k : List Byte) : List Byte :=
  compressKey k ++ List.replicate (64 - (compressKey k).length) 0#8

/-- IPAD (R162). -/
def innerPad (k : List Byte) : List Byte := (padKey k).map (· ^^^ 0x36#8)

/-- OPAD (R162). -/
def outerPad (k : List Byte) : List Byte := (padKey k).map (· ^^^ 0x5C#8)

/-- HI (R163). -/
def innerHash (k m : List Byte) : Digest :=
  sha1Words (packBE (innerPad k) ++ packBE m) (512 + 8 * m.length)

/-- HO, the HMAC result (R164, R165). -/
def hmacSha1 (k m : List Byte) : Digest :=
  sha1Words (packBE (outerPad k) ++ digestWords (innerHash k m)) (512 + 160)

end Sys2Proof.Machine
end

