-- ==== Sys2Proof/Syntax.lean ====
section
/-! DEFINITION. The instructions of the core: the twelve commands of spec 30_encoding R93, one constructor per row of
opcode_table.json. A command has no operand field (R90): its operands are implicit (R95). -/

namespace Sys2Proof

/-- The twelve legal commands (R93). -/
inductive Instr where
  /-- COPY, word 0x0 (R213). -/
  | copy
  /-- SHA1, word 0x1 (R214). -/
  | sha1
  /-- HMAC, word 0x2 (R215). -/
  | hmac
  /-- HEX, word 0x4 (R216). -/
  | hex
  /-- SHA1.HEX, word 0x5 (R217). -/
  | sha1Hex
  /-- HMAC.HEX, word 0x6 (R218). -/
  | hmacHex
  /-- B64, word 0x8 (R219). -/
  | b64
  /-- SHA1.B64, word 0x9 (R220). -/
  | sha1B64
  /-- HMAC.B64, word 0xA (R221). -/
  | hmacB64
  /-- RADIX, word 0xC (R222). -/
  | radix
  /-- SHA1.RADIX, word 0xD (R223). -/
  | sha1Radix
  /-- HMAC.RADIX, word 0xE (R224). -/
  | hmacRadix
  deriving DecidableEq, Repr

end Sys2Proof
end

