-- ==== Sys2Proof/Machine/Fields.lean ====
section
/-! DEFINITION. The two fields of a command word, FUNC and ENC (spec 30_encoding R90 to R92), which pair of them each
command is (R93), and the commands' names (R93, R97). -/

namespace Sys2Proof.Machine

/-- FUNC, bits 1:0 of the command word: what is computed from MSG (R91). -/
inductive Func where
  | none
  | sha1
  | hmac
  deriving DecidableEq, Repr

/-- ENC, bits 3:2 of the command word: how the result is written to OUT (R92). -/
inductive Enc where
  | raw
  | hex
  | b64
  | radix
  deriving DecidableEq, Repr

/-- The FUNC value's bits (R91). -/
def Func.code : Func → BitVec 2
  | .none => 0b00
  | .sha1 => 0b01
  | .hmac => 0b10

/-- The ENC value's bits (R92). -/
def Enc.code : Enc → BitVec 2
  | .raw => 0b00
  | .hex => 0b01
  | .b64 => 0b10
  | .radix => 0b11

/-- The FUNC column of R93. -/
def funcOf : Instr → Func
  | .copy | .hex | .b64 | .radix => .none
  | .sha1 | .sha1Hex | .sha1B64 | .sha1Radix => .sha1
  | .hmac | .hmacHex | .hmacB64 | .hmacRadix => .hmac

/-- The ENC column of R93. -/
def encOf : Instr → Enc
  | .copy | .sha1 | .hmac => .raw
  | .hex | .sha1Hex | .hmacHex => .hex
  | .b64 | .sha1B64 | .hmacB64 => .b64
  | .radix | .sha1Radix | .hmacRadix => .radix

/-- The command of a (FUNC, ENC) pair (R93: one per pair). -/
def instrOf : Func → Enc → Instr
  | .none, .raw => .copy
  | .sha1, .raw => .sha1
  | .hmac, .raw => .hmac
  | .none, .hex => .hex
  | .sha1, .hex => .sha1Hex
  | .hmac, .hex => .hmacHex
  | .none, .b64 => .b64
  | .sha1, .b64 => .sha1B64
  | .hmac, .b64 => .hmacB64
  | .none, .radix => .radix
  | .sha1, .radix => .sha1Radix
  | .hmac, .radix => .hmacRadix

/-- The mnemonics of R93, and the long forms FUNC.ENC of R97, each with the command it names. -/
def nameTable : List (String × Instr) :=
  [("COPY", .copy), ("SHA1", .sha1), ("HMAC", .hmac),
   ("HEX", .hex), ("SHA1.HEX", .sha1Hex), ("HMAC.HEX", .hmacHex),
   ("B64", .b64), ("SHA1.B64", .sha1B64), ("HMAC.B64", .hmacB64),
   ("RADIX", .radix), ("SHA1.RADIX", .sha1Radix), ("HMAC.RADIX", .hmacRadix)] ++
  [("NONE.RAW", .copy), ("NONE.HEX", .hex), ("NONE.B64", .b64), ("NONE.RADIX", .radix),
   ("SHA1.RAW", .sha1), ("HMAC.RAW", .hmac)]

/-- The command a name stands for, none where R97 gives the name no meaning. -/
def instrNamed (name : String) : Option Instr :=
  (nameTable.find? fun row => row.1 == name).map Prod.snd

end Sys2Proof.Machine
end

