-- ==== Sys2Proof/Machine/Encoders.lean ====
section
/-! DEFINITION. The four output encoders (spec 42_encoders R180 to R193). -/

namespace Sys2Proof.Machine

/-- RAW (R181). -/
def rawEnc (s : List Byte) : List Byte := s

/-- The hex digit of a nibble n < 16: '0'..'9', then 'a'..'f' or 'A'..'F' (R180, R182). -/
def hexDigit (upper : Bool) (n : Nat) : Byte :=
  if n < 10 then BitVec.ofNat 8 (0x30 + n)
  else BitVec.ofNat 8 ((if upper then 0x41 else 0x61) + (n - 10))

/-- HEX (R182): two digits per byte, high nibble first. -/
def hexEnc (s : List Byte) (upper : Bool) : List Byte :=
  s.flatMap fun b => [hexDigit upper (b.toNat / 16), hexDigit upper (b.toNat % 16)]

/-- TAB[n] for n < 64 (R184). -/
def b64Symbol (n : Nat) : Byte :=
  if n < 26 then BitVec.ofNat 8 (0x41 + n)
  else if n < 52 then BitVec.ofNat 8 (0x61 + (n - 26))
  else if n < 62 then BitVec.ofNat 8 (0x30 + (n - 52))
  else if n = 62 then 0x2B#8
  else 0x2F#8

/-- The 24 bits of the group that starts at byte i; a byte past the end counts as 0 (R185). -/
def b64Triplet (s : List Byte) (i : Nat) : Nat :=
  (s.getD i 0#8).toNat * 65536 + (s.getD (i + 1) 0#8).toNat * 256 + (s.getD (i + 2) 0#8).toNat

/-- The output byte at position j of group g (R185, R186). -/
def b64Char (s : List Byte) (pad : Byte) (g j : Nat) : Byte :=
  if 8 * s.length < 8 * (3 * g) + 6 * j then pad
  else b64Symbol (b64Triplet s (3 * g) / 2 ^ (6 * (3 - j)) % 64)

/-- B64 (R185): ceil(n/3) groups of four. -/
def b64Enc (s : List Byte) (pad : Byte) : List Byte :=
  (List.range ((s.length + 2) / 3)).flatMap fun g =>
    [b64Char s pad g 0, b64Char s pad g 1, b64Char s pad g 2, b64Char s pad g 3]

/-- V, the big-endian value of a byte string (R188). -/
def radixValue (s : List Byte) : Nat := s.foldl (fun v b => v * 256 + b.toNat) 0

/-- From power = r^m on: the least exponent, at least m, whose power reaches target, looking at most fuel further. -/
def fullLenFrom (r target : Nat) : Nat → Nat → Nat → Nat
  | 0, _, m => m
  | fuel + 1, power, m =>
    if target ≤ power then m else fullLenFrom r target fuel (power * r) (m + 1)

/-- FullLen(n, r) for r ≥ 2: the least m with r^m ≥ 2^(8n) (R189); it is at most 8n. -/
def fullLen (n r : Nat) : Nat := fullLenFrom r (2 ^ (8 * n)) (8 * n) 1 0

/-- The base-r digits of v, least significant first, at most fuel of them: divide while v > 0 (R190). -/
def radixDigits (r : Nat) : Nat → Nat → List Nat
  | 0, _ => []
  | fuel + 1, v => if v = 0 then [] else v % r :: radixDigits r fuel (v / r)

/-- RADIX (R190) over the alphabet a, r = |a| ≥ 2: the digits of V reversed into symbols, left-padded with a[0] to
FullLen(|s|, r). V < 2^(8|s|) has at most 8|s| digits. -/
def radixEnc (s a : List Byte) : List Byte :=
  let digits := radixDigits a.length (8 * s.length) (radixValue s)
  let out := digits.reverse.map fun d => a.getD d 0#8
  List.replicate (fullLen s.length a.length - out.length) (a.getD 0 0#8) ++ out

/-- EncLen (R193), n = |S|, r = ALPHA_LEN. -/
def encLen (e : Enc) (n r : Nat) : Nat :=
  match e with
  | .raw => n
  | .hex => 2 * n
  | .b64 => 4 * ((n + 2) / 3)
  | .radix => fullLen n r

end Sys2Proof.Machine
end

