-- ==== Sys2Proof/Machine/State.lean ====
section
/-! DEFINITION. The core's state (spec 10_state R20 to R47), the agents that act on it (00_scope R15), the reasons a run
stops, and the state right after reset (70_reset R270). -/

namespace Sys2Proof.Machine

/-- One byte buffer: the bytes written since reset, by index, indices strictly rising. An unlisted index was not written
since reset (its written mark is false, R41) and has no value (R271, DESIGN CHOICE, log 5). -/
abbrev Memory := List Host.Cell

/-- The four byte buffers (R40). -/
inductive Buf where
  | msg
  | key
  | alpha
  | out
  deriving DecidableEq, Repr

/-- A host bus transaction: MemRead(addr, n) or MemWrite(addr, n, v) (00_scope R14, 20_memory R60). -/
inductive Txn where
  | read (addr : Word) (n : Nat)
  | write (addr : Word) (n : Nat) (v : Word)
  deriving DecidableEq, Repr

/-- A line of a host script (30_encoding R99): one transaction, or a poll loop. -/
inductive HostLine where
  | txn (t : Txn)
  | poll (addr mask v : Word)
  deriving DecidableEq, Repr

/-- The response of a transaction (R14). -/
inductive Resp where
  | okay
  | buserr
  deriving DecidableEq, Repr

/-- What the host observes of one transaction (00_scope R16): the response, and for a read the data. -/
inductive Response where
  | read (r : Resp) (data : Word)
  | write (r : Resp)
  deriving DecidableEq, Repr

/-- Whose event comes next in the total order of 20_memory R73 (DESIGN CHOICE, log 1): the host, the command engine, or the platform's
reset. -/
inductive Turn where
  | host
  | engine
  | reset
  deriving DecidableEq, Repr

/-- The command latch (R46): the operands of the command in flight, as they stood at its accepted CMD write. -/
structure Latch where
  cmd : Word
  cfg : Word
  msgLen : Word
  keyLen : Word
  alphaLen : Word
  deriving DecidableEq, Repr

/-- The command errors of 60_exceptions R241. -/
inductive CmdError where
  | illegalCmd
  | msgRange
  | keyRange
  | alphaRange
  | outRange
  deriving DecidableEq, Repr

/-- The state of the core and, below it, of the model's agents. -/
structure State where
  /-- The capacities, which MSG_CAP_R, KEY_CAP_R and OUT_CAP_R show (R23 to R25); no event changes them (DESIGN CHOICE, log 4). -/
  caps : Config.Caps
  /-- CMD (R26). -/
  cmd : Word
  /-- STATUS (R27); its fields are read and written through Flags.lean. -/
  status : Word
  /-- CFG (R33). -/
  cfg : Word
  /-- MSG_LEN (R34). -/
  msgLen : Word
  /-- KEY_LEN (R35). -/
  keyLen : Word
  /-- ALPHA_LEN (R36). -/
  alphaLen : Word
  /-- OUT_LEN (R37). -/
  outLen : Word
  /-- DIGEST0..DIGEST4 (R38). -/
  digest : Digest
  /-- MSG with its written marks (R40, R41). -/
  msg : Memory
  /-- KEY with its written marks (R40, R41). -/
  key : Memory
  /-- ALPHA with its written marks (R40, R41). -/
  alpha : Memory
  /-- OUT with its written marks (R40, R41). -/
  out : Memory
  /-- The command latch (R46); none where no command is latched (R270). -/
  latch : Option Latch
  /-- The engine's internal registers (R42 to R45). -/
  engine : Engine
  /-- The model's own: numbers the free values (DESIGN CHOICE, log 7). -/
  freeIx : Nat
  /-- The model's own: whose event comes next (R73, R74, DESIGN CHOICE, log 1). -/
  turns : List Turn
  /-- The model's own: the lines the host has still to carry out (R99, DESIGN CHOICE, log 2). -/
  script : List HostLine
  /-- The model's own: what the host has observed, newest first (R16, DESIGN CHOICE, log 3). -/
  log : List Response
  deriving DecidableEq, Repr

/-- Why a run stops: the ModelFault of 60_exceptions R255, in its two cases. Both are safe: the hardware goes on with an
unspecified value, and the model gives none. -/
inductive Fault where
  /-- Raised by a completion step that passed every check and consumes a byte never written since reset (R255 (a)).
  Safe. -/
  | unwrittenOperand
  /-- Raised by a host read of MSG, ALPHA or OUT, taking its normal effect, that covers a byte never written since reset
  (R255 (b)). Safe. -/
  | unwrittenRead
  deriving DecidableEq, Repr

/-- Why an instruction has no meaning here. -/
inductive Refusal where
  /-- Raised by an arm of exec for an instruction that is not modelled yet; no arm raises it. Safe. -/
  | notModelled (mnemonic : String)
  deriving DecidableEq, Repr

/-- What one event gives. -/
abbrev Result := Host.Outcome State Fault Refusal

/-- The core right after reset (R21, R270, R273), with the capacities of REF (R8, DESIGN CHOICE, log 4), nothing written, no command
latched, and no agent with anything to do. The engine's internal registers are unspecified after reset: zeros, DESIGN CHOICE, log 6. -/
def State.reset : State where
  caps := Config.ref
  cmd := 0#32
  status := 0#32
  cfg := 0x3D00#32
  msgLen := 0#32
  keyLen := 0#32
  alphaLen := 0#32
  outLen := 0#32
  digest := { h0 := 0#32, h1 := 0#32, h2 := 0#32, h3 := 0#32, h4 := 0#32 }
  msg := []
  key := []
  alpha := []
  out := []
  latch := none
  engine :=
    { acc := { h0 := 0#32, h1 := 0#32, h2 := 0#32, h3 := 0#32, h4 := 0#32 }
      work := { a := 0#32, b := 0#32, c := 0#32, d := 0#32, e := 0#32 }
      w := Vector.replicate 80 0#32
      round := 0
      block := 0
      phase := .message
      encPos := 0 }
  freeIx := 0
  turns := []
  script := []
  log := []

end Sys2Proof.Machine
end

