-- ==== Sys2Proof/Machine/Flags.lean ====
section
/-! DEFINITION. The fields of STATUS and CFG (spec 10_state R27 to R33), the core's only flags (R49): reading them, and
each change of STATUS the spec names. -/

namespace Sys2Proof.Machine

/-- STATUS.BUSY, bit 0 (R28). -/
def statusBusy (w : Word) : Bool := w.getLsbD 0

/-- STATUS.DONE, bit 1 (R29). -/
def statusDone (w : Word) : Bool := w.getLsbD 1

/-- STATUS.ERR, bit 2 (R30). -/
def statusErr (w : Word) : Bool := w.getLsbD 2

/-- STATUS.BUSYERR, bit 3 (R31). -/
def statusBusyErr (w : Word) : Bool := w.getLsbD 3

/-- STATUS.ERRCODE, bits 11:8 (R32). -/
def statusErrCode (w : Word) : BitVec 4 := w.extractLsb' 8 4

/-- The bits of STATUS that are reserved and read as zero: 7:4 and 31:12 (R27). -/
def statusReserved : Word := 0xFFFFF0F0#32

/-- The bits of CFG that exist: HEX_UPPER (bit 0) and PAD_CHAR (bits 15:8); the rest is reserved (R33). -/
def cfgFields : Word := 0x0000FF01#32

/-- CFG.HEX_UPPER, bit 0 (R33). -/
def cfgHexUpper (w : Word) : Bool := w.getLsbD 0

/-- CFG.PAD_CHAR, bits 15:8 (R33). -/
def cfgPadChar (w : Word) : Byte := w.extractLsb' 8 8

/-- w with bit k (below 32) set to b. -/
def putBit (w : Word) (k : Nat) (b : Bool) : Word :=
  if b then w ||| BitVec.twoPow 32 k else w &&& ~~~(BitVec.twoPow 32 k)

/-- STATUS with ERRCODE set to c. -/
def putErrCode (w : Word) (c : BitVec 4) : Word :=
  (w &&& 0xFFFFF0FF#32) ||| (c.setWidth 32 <<< 8)

/-- The error codes of 60_exceptions R241. -/
def CmdError.code : CmdError → BitVec 4
  | .illegalCmd => 1#4
  | .msgRange => 2#4
  | .keyRange => 3#4
  | .alphaRange => 4#4
  | .outRange => 5#4

/-- STATUS at an accepted CMD write: DONE, ERR and ERRCODE cleared, BUSY set (R26). -/
def statusOnStart (w : Word) : Word :=
  putBit (putErrCode (putBit (putBit w 1 false) 2 false) 0#4) 0 true

/-- STATUS at a completion: BUSY cleared, DONE set, ERR and ERRCODE as given (R225, R248). -/
def statusOnFinish (w : Word) (err : Bool) (c : BitVec 4) : Word :=
  putErrCode (putBit (putBit (putBit w 0 false) 1 true) 2 err) c

/-- STATUS after a dropped write: BUSYERR set (R31, R72). -/
def statusOnDrop (w : Word) : Word := putBit w 3 true

/-- STATUS after the host writes v to it: bit 3 of v clears BUSYERR, every other bit is ignored (R27). -/
def statusOnWrite (w v : Word) : Word := if v.getLsbD 3 then putBit w 3 false else w

end Sys2Proof.Machine
end

