-- ==== Sys2Proof/Machine/Ops.lean ====
section
/-! DEFINITION. The named operations on the core's buffers and registers: bytes with their written marks (spec 10_state
R40, R41), words of bytes (20_memory R64), the accepted CMD write (R26), the end of a command with an error (60_exceptions
R248) or with a result (43_commands R225), and the reset event (70_reset R270). -/

namespace Sys2Proof.Machine

/-- The byte at an index, none where its written mark is false (R41). -/
def Memory.read : Memory → Nat → Option Byte
  | [], _ => none
  | (j, b) :: m, i => if j = i then some b else Memory.read m i

/-- The byte at an index written and its mark set (R41); the list stays in rising order. -/
def Memory.write : Memory → Nat → Byte → Memory
  | [], i, v => [(i, v)]
  | (j, b) :: m, i, v =>
    if i < j then (i, v) :: (j, b) :: m
    else if i = j then (i, v) :: m
    else (j, b) :: Memory.write m i v

/-- n bytes from index i on, none where one of them was never written. -/
def Memory.readRange (m : Memory) : Nat → Nat → Option (List Byte)
  | _, 0 => some []
  | i, n + 1 =>
    match Memory.read m i with
    | none => none
    | some b =>
      match Memory.readRange m (i + 1) n with
      | none => none
      | some bs => some (b :: bs)

/-- Bytes written from index i on. -/
def Memory.writeRange (m : Memory) : Nat → List Byte → Memory
  | _, [] => m
  | i, b :: bs => Memory.writeRange (Memory.write m i b) (i + 1) bs

/-- The canonical form: indices strictly rising. Every listed byte is a written one. -/
abbrev Memory.wf (m : Memory) : Prop := List.Pairwise (fun x y => x.1 < y.1) m

/-- The data word of a read: the byte at the lowest address in bits 7:0, and so on (R64). -/
def leWord : List Byte → Word
  | [] => 0#32
  | b :: bs => b.setWidth 32 ||| (leWord bs <<< 8)

/-- The n lanes of a data word that a write of n bytes stores, lowest address first (R64). -/
def leBytes : Nat → Word → List Byte
  | 0, _ => []
  | n + 1, v => v.setWidth 8 :: leBytes n (v >>> 8)

/-- A buffer (R40). -/
def State.buf (s : State) : Buf → Memory
  | .msg => s.msg
  | .key => s.key
  | .alpha => s.alpha
  | .out => s.out

/-- A buffer replaced. -/
def State.setBuf (s : State) : Buf → Memory → State
  | .msg, m => { s with msg := m }
  | .key, m => { s with key := m }
  | .alpha, m => { s with alpha := m }
  | .out, m => { s with out := m }

/-- The capacity of a buffer (R40). -/
def State.bufCap (s : State) : Buf → Nat
  | .msg => s.caps.msgCap
  | .key => s.caps.keyCap
  | .alpha => Config.alphaCap
  | .out => s.caps.outCap

/-- STATUS.BUSY. -/
def State.busy (s : State) : Bool := statusBusy s.status

/-- The operands a CMD write of v latches (R46). -/
def State.capture (s : State) (v : Word) : Latch where
  cmd := v
  cfg := s.cfg
  msgLen := s.msgLen
  keyLen := s.keyLen
  alphaLen := s.alphaLen

/-- The accepted CMD write of v, one indivisible action (R26, R46). It is also how an earlier command's error is cleared,
the core's "trap return" (60_exceptions R249). -/
def State.startCommand (s : State) (v : Word) : State :=
  { s with cmd := v, status := statusOnStart s.status, latch := some (s.capture v) }

/-- The end of every command: STATUS as given, no command latched any more, the engine's internal registers unspecified
(R47, DESIGN CHOICE, log 6). -/
def State.finish (s : State) (status : Word) : State :=
  { s with
    status := status
    latch := none
    engine := Config.engineResidue s.freeIx
    freeIx := s.freeIx + 1 }

/-- raise CmdError(code), the core's "trap entry" (60_exceptions R248): of what the host can see, only STATUS changes. -/
def State.raiseCmdError (s : State) (e : CmdError) : State :=
  s.finish (statusOnFinish s.status true e.code)

/-- Commit(O, Hd, FUNC) (43_commands R225): hd is none for FUNC = NONE. -/
def State.commit (s : State) (o : List Byte) (hd : Option Digest) : State :=
  { s.finish (statusOnFinish s.status false 0#4) with
    out := Memory.writeRange s.out 0 o
    outLen := BitVec.ofNat 32 o.length
    digest := hd.getD s.digest }

/-- A write dropped under busy lockout: only BUSYERR changes (20_memory R72). -/
def State.dropWrite (s : State) : State := { s with status := statusOnDrop s.status }

/-- The reset event (70_reset R270 to R273): registers to their reset values, all written marks false, a command in flight
cancelled, the engine's internal registers unspecified (DESIGN CHOICE, log 6). The agents' own fields are not the core's (DEDUCED, log 8). -/
def State.platformReset (s : State) : State :=
  { State.reset with
    caps := s.caps
    engine := Config.engineResidue s.freeIx
    freeIx := s.freeIx + 1
    turns := s.turns
    script := s.script
    log := s.log }

/-- What the host observes is added to its log (R16). -/
def State.observe (s : State) (r : Response) : State := { s with log := r :: s.log }

end Sys2Proof.Machine
end

