-- ==== Sys2Proof/Machine/Operands.lean ====
section
/-! DEFINITION. A command's operands (spec 30_encoding R95): the latched values (10_state R46), the interface checks on
them (60_exceptions R242 to R247), and the bytes a command consumes (43_commands R210, 60_exceptions R255). -/

namespace Sys2Proof.Machine

/-- The operands of the command in flight: the latched ones (R46). Where none is latched (no completion step is then
enabled) they are read as the registers, which R46 says the latch equals (DEDUCED, log 9). -/
def State.operands (s : State) : Latch := s.latch.getD (s.capture s.cmd)

/-- n, the latched MSG_LEN as a natural (R34, R95). -/
def State.msgCount (s : State) : Nat := s.operands.msgLen.toNat

/-- k, the latched KEY_LEN as a natural (R35, R95). -/
def State.keyCount (s : State) : Nat := s.operands.keyLen.toNat

/-- r, the latched ALPHA_LEN as a natural (R36, R95). -/
def State.radix (s : State) : Nat := s.operands.alphaLen.toNat

/-- |S|, the number of bytes given to the encoder (R210). -/
def sourceLen (f : Func) (n : Nat) : Nat :=
  match f with
  | .none => n
  | .sha1 | .hmac => 20

/-- The interface checks of a legal command, in the order of R247; none where all pass. -/
def State.rangeError (s : State) (f : Func) (e : Enc) : Option CmdError :=
  if s.caps.msgCap < s.msgCount then some .msgRange
  else if f = .hmac ∧ s.caps.keyCap < s.keyCount then some .keyRange
  else if e = .radix ∧ (s.radix < 2 ∨ 256 < s.radix) then some .alphaRange
  else if s.caps.outCap < encLen e (sourceLen f s.msgCount) s.radix then some .outRange
  else none

/-- M = MSG[0..n), consumed by every command (R95); none where a byte of it was never written (R255). -/
def State.message (s : State) : Option (List Byte) := Memory.readRange s.msg 0 s.msgCount

/-- K = KEY[0..k), consumed when FUNC = HMAC (R95); no other command reads KEY. -/
def State.keyBytes (s : State) : Func → Option (List Byte)
  | .hmac => Memory.readRange s.key 0 s.keyCount
  | .none | .sha1 => some []

/-- A = ALPHA[0..r), consumed when ENC = RADIX (R95); no other command reads ALPHA. -/
def State.alphabet (s : State) : Enc → Option (List Byte)
  | .radix => Memory.readRange s.alpha 0 s.radix
  | .raw | .hex | .b64 => some []

end Sys2Proof.Machine
end

