-- ==== Sys2Proof/Machine/Command.lean ====
section
/-! DEFINITION. The body every command shares (spec 43_commands R210 to R212): checks, source stage, encoder stage,
commit. -/

namespace Sys2Proof.Machine

/-- Source(FUNC, M, K) (R211): the bytes given to the encoder, and the digest where there is one. -/
def source (f : Func) (m k : List Byte) : List Byte × Option Digest :=
  match f with
  | .none => (m, none)
  | .sha1 => (digestBytes (sha1Digest m), some (sha1Digest m))
  | .hmac => (digestBytes (hmacSha1 k m), some (hmacSha1 k m))

/-- Encode(ENC, S, cfg, A) (R212). -/
def encodeOut (e : Enc) (cfg : Word) (a s : List Byte) : List Byte :=
  match e with
  | .raw => rawEnc s
  | .hex => hexEnc s (cfgHexUpper cfg)
  | .b64 => b64Enc s (cfgPadChar cfg)
  | .radix => radixEnc s a

/-- The result of a command on operands that passed every check (R210). -/
def State.deliver (s : State) (f : Func) (e : Enc) (m k a : List Byte) : State :=
  s.commit (encodeOut e s.operands.cfg a (source f m k).1) (source f m k).2

/-- The completion of the legal command (FUNC, ENC) (R210): the first failing check is raised (R247), then an unwritten
operand is a ModelFault (R255), else the result is committed. -/
def runCommand (f : Func) (e : Enc) (s : State) : Result :=
  match s.rangeError f e with
  | some err => .next (s.raiseCmdError err)
  | none =>
    match s.message, s.keyBytes f, s.alphabet e with
    | some m, some k, some a => .next (s.deliver f e m k a)
    | _, _, _ => .fault .unwrittenOperand

end Sys2Proof.Machine
end

