-- ==== Sys2Proof/Machine/Base64.lean ====
section
/-! DEFINITION. The meanings of the B64 commands B64, SHA1.B64 and HMAC.B64 (spec 43_commands R219 to R221). -/

namespace Sys2Proof.Machine

/-- B64 (R219): FUNC = NONE, ENC = B64. -/
def execB64 (s : State) : Result := runCommand .none .b64 s

/-- SHA1.B64 (R220): FUNC = SHA1, ENC = B64. -/
def execSha1B64 (s : State) : Result := runCommand .sha1 .b64 s

/-- HMAC.B64 (R221): FUNC = HMAC, ENC = B64. -/
def execHmacB64 (s : State) : Result := runCommand .hmac .b64 s

end Sys2Proof.Machine
end

