-- ==== Sys2Proof/Machine/Hex.lean ====
section
/-! DEFINITION. The meanings of the HEX commands HEX, SHA1.HEX and HMAC.HEX (spec 43_commands R216 to R218). -/

namespace Sys2Proof.Machine

/-- HEX (R216): FUNC = NONE, ENC = HEX. -/
def execHex (s : State) : Result := runCommand .none .hex s

/-- SHA1.HEX (R217): FUNC = SHA1, ENC = HEX. -/
def execSha1Hex (s : State) : Result := runCommand .sha1 .hex s

/-- HMAC.HEX (R218): FUNC = HMAC, ENC = HEX. -/
def execHmacHex (s : State) : Result := runCommand .hmac .hex s

end Sys2Proof.Machine
end

