-- ==== Sys2Proof/Machine/Radix.lean ====
section
/-! DEFINITION. The meanings of the RADIX commands RADIX, SHA1.RADIX and HMAC.RADIX (spec 43_commands R222 to R224). -/

namespace Sys2Proof.Machine

/-- RADIX (R222): FUNC = NONE, ENC = RADIX. -/
def execRadix (s : State) : Result := runCommand .none .radix s

/-- SHA1.RADIX (R223): FUNC = SHA1, ENC = RADIX. -/
def execSha1Radix (s : State) : Result := runCommand .sha1 .radix s

/-- HMAC.RADIX (R224): FUNC = HMAC, ENC = RADIX. -/
def execHmacRadix (s : State) : Result := runCommand .hmac .radix s

end Sys2Proof.Machine
end

