-- ==== Sys2Proof/Machine/Raw.lean ====
section
/-! DEFINITION. The meanings of the RAW commands COPY, SHA1 and HMAC (spec 43_commands R213 to R215). -/

namespace Sys2Proof.Machine

/-- COPY (R213): FUNC = NONE, ENC = RAW. -/
def execCopy (s : State) : Result := runCommand .none .raw s

/-- SHA1 (R214): FUNC = SHA1, ENC = RAW. -/
def execSha1 (s : State) : Result := runCommand .sha1 .raw s

/-- HMAC (R215): FUNC = HMAC, ENC = RAW. -/
def execHmac (s : State) : Result := runCommand .hmac .raw s

end Sys2Proof.Machine
end

