-- ==== Sys2Proof/Machine/Dispatch.lean ====
section
/-! DEFINITION. Which meaning each command has: its completion step (spec 43_commands R210, R213 to R224), carried out on
the operands of the command in flight. -/

namespace Sys2Proof.Machine

def exec (i : Instr) (s : State) : Host.Outcome State Fault Refusal :=
  match i with
  | .copy => Sys2Proof.Machine.execCopy s
  | .sha1 => Sys2Proof.Machine.execSha1 s
  | .hmac => Sys2Proof.Machine.execHmac s
  | .hex => Sys2Proof.Machine.execHex s
  | .sha1Hex => Sys2Proof.Machine.execSha1Hex s
  | .hmacHex => Sys2Proof.Machine.execHmacHex s
  | .b64 => Sys2Proof.Machine.execB64 s
  | .sha1B64 => Sys2Proof.Machine.execSha1B64 s
  | .hmacB64 => Sys2Proof.Machine.execHmacB64 s
  | .radix => Sys2Proof.Machine.execRadix s
  | .sha1Radix => Sys2Proof.Machine.execSha1Radix s
  | .hmacRadix => Sys2Proof.Machine.execHmacRadix s

end Sys2Proof.Machine
end

