-- ==== Sys2Proof/Decode.lean ====
section
/-! DEFINITION. Decoding and encoding of the command word (spec 30_encoding R90 to R96). Decoding is total: a word is one
of the twelve commands, or illegal for a named reason. -/

namespace Sys2Proof

open Machine

/-- Why a word is no command (R94); both are ILLEGAL_CMD at completion (60_exceptions R242). -/
inductive IllegalWord where
  /-- RES, bits 31:4, is not 0. -/
  | reservedBits
  /-- FUNC, bits 1:0, is 0b11. -/
  | reservedFunc
  deriving DecidableEq, Repr

/-- FUNC = w[1:0] (R96). -/
def wordFunc (w : Word) : BitVec 2 := w.extractLsb' 0 2

/-- ENC = w[3:2] (R96). -/
def wordEnc (w : Word) : BitVec 2 := w.extractLsb' 2 2

/-- RES = w[31:4] (R90). -/
def wordRes (w : Word) : BitVec 28 := w.extractLsb' 4 28

/-- R91; none for the reserved value 0b11. -/
def decodeFunc (b : BitVec 2) : Option Func :=
  if b = 0b00#2 then some .none
  else if b = 0b01#2 then some .sha1
  else if b = 0b10#2 then some .hmac
  else none

/-- R92. -/
def decodeEnc (b : BitVec 2) : Enc :=
  if b = 0b00#2 then .raw
  else if b = 0b01#2 then .hex
  else if b = 0b10#2 then .b64
  else .radix

/-- The decoder of R96, total on words. -/
def decode (w : Word) : Except IllegalWord Instr :=
  if wordRes w ≠ 0#28 then .error .reservedBits
  else
    match decodeFunc (wordFunc w) with
    | none => .error .reservedFunc
    | some f => .ok (instrOf f (decodeEnc (wordEnc w)))

/-- The word of a command: RES = 0, ENC, FUNC (R90). -/
def encode (i : Instr) : Word := 0#28 ++ (encOf i).code ++ (funcOf i).code

/-- The word the opcode table's numbering gives: the low nbits bits of w; the table's rows are one 32-bit word. -/
def tableWord (nbits w : Nat) : Word := BitVec.ofNat 32 (w % 2 ^ nbits)

/-- The instruction the decoder reads from an instruction whose bits are w, numbered as spec/opcode_table.json does. -/
def decodeTableWord (nbits w : Nat) : Option Instr :=
  match decode (tableWord nbits w) with
  | .ok i => some i
  | .error _ => none

end Sys2Proof
end

