-- ==== Sys2Proof/Machine/Registers.lean ====
section
/-! DEFINITION. The register map (spec 10_state R21 to R39): which register stands at which offset, what a read returns,
and what an accepted write does. -/

namespace Sys2Proof.Machine

/-- The registers of R21. -/
inductive RegName where
  | id
  | msgCapR
  | keyCapR
  | outCapR
  | cmd
  | status
  | cfg
  | msgLen
  | keyLen
  | alphaLen
  | outLen
  | digest0
  | digest1
  | digest2
  | digest3
  | digest4
  /-- Offsets 0x02C and 0x044 to 0xFFC (R39). -/
  | reserved
  deriving DecidableEq, Repr

/-- The map of R21: offset and register. -/
def regMap : List (Nat × RegName) :=
  [(0x000, .id), (0x004, .msgCapR), (0x008, .keyCapR), (0x00C, .outCapR),
   (0x010, .cmd), (0x014, .status), (0x018, .cfg), (0x01C, .msgLen),
   (0x020, .keyLen), (0x024, .alphaLen), (0x028, .outLen),
   (0x030, .digest0), (0x034, .digest1), (0x038, .digest2), (0x03C, .digest3), (0x040, .digest4)]

/-- The register at a word-aligned offset of the REG window (R21, R39). -/
def regAt (off : Nat) : RegName :=
  match regMap.find? fun row => row.1 == off with
  | some row => row.2
  | none => .reserved

/-- The value a read of a register returns when nothing is locked out (R22 to R39). -/
def State.readReg (s : State) : RegName → Word
  | .id => Config.idValue
  | .msgCapR => BitVec.ofNat 32 s.caps.msgCap
  | .keyCapR => BitVec.ofNat 32 s.caps.keyCap
  | .outCapR => BitVec.ofNat 32 s.caps.outCap
  | .cmd => s.cmd
  | .status => s.status
  | .cfg => s.cfg
  | .msgLen => s.msgLen
  | .keyLen => s.keyLen
  | .alphaLen => s.alphaLen
  | .outLen => s.outLen
  | .digest0 => s.digest.h0
  | .digest1 => s.digest.h1
  | .digest2 => s.digest.h2
  | .digest3 => s.digest.h3
  | .digest4 => s.digest.h4
  | .reserved => 0#32

/-- An accepted write of v to a register (R22 to R39): RO registers and reserved offsets ignore it. -/
def State.writeReg (s : State) (r : RegName) (v : Word) : State :=
  match r with
  | .cmd => s.startCommand v
  | .status => { s with status := statusOnWrite s.status v }
  | .cfg => { s with cfg := v &&& cfgFields }
  | .msgLen => { s with msgLen := v }
  | .keyLen => { s with keyLen := v }
  | .alphaLen => { s with alphaLen := v }
  | .id | .msgCapR | .keyCapR | .outCapR | .outLen => s
  | .digest0 | .digest1 | .digest2 | .digest3 | .digest4 | .reserved => s

/-- The registers that read normally while BUSY = 1 (20_memory R72). -/
def RegName.readsWhileBusy : RegName → Bool
  | .id | .msgCapR | .keyCapR | .outCapR | .status => true
  | .cmd | .cfg | .msgLen | .keyLen | .alphaLen | .outLen => false
  | .digest0 | .digest1 | .digest2 | .digest3 | .digest4 | .reserved => false

end Sys2Proof.Machine
end

