-- ==== Sys2Proof/Machine/Bus.lean ====
section
/-! DEFINITION. Host bus transactions (spec 20_memory R60 to R72): the address map, the decode check, the busy lockout,
and each window's reads and writes. -/

namespace Sys2Proof.Machine

/-- Where a mapped address lies (R61): a REG offset, or an offset in a buffer. -/
inductive Place where
  | reg (off : Nat)
  | buf (b : Buf) (off : Nat)
  deriving DecidableEq, Repr

/-- The first address of each buffer's window (R61, R99). -/
def bufBase : Buf → Nat
  | .alpha => 0x00001000
  | .key => 0x00002000
  | .msg => 0x40000000
  | .out => 0x80000000

/-- The size of each buffer's window (R61); offsets at or above the buffer's capacity are unmapped. -/
def bufWindow : Buf → Nat
  | .alpha => 0x100
  | .key => 0x1000
  | .msg => 0x40000000
  | .out => 0x40000000

/-- Whether an address is a mapped byte of a buffer (R61). -/
def inBuf (s : State) (b : Buf) (addr : Nat) : Bool :=
  decide (bufBase b ≤ addr) && decide (addr - bufBase b < bufWindow b) &&
    decide (addr - bufBase b < s.bufCap b)

/-- The address map (R61), none where the address is unmapped. -/
def locate (s : State) (addr : Nat) : Option Place :=
  if addr < 0x1000 then some (.reg addr)
  else if inBuf s .alpha addr then some (.buf .alpha (addr - bufBase .alpha))
  else if inBuf s .key addr then some (.buf .key (addr - bufBase .key))
  else if inBuf s .msg addr then some (.buf .msg (addr - bufBase .msg))
  else if inBuf s .out addr then some (.buf .out (addr - bufBase .out))
  else none

/-- Why a transaction is answered BUSERR (R62). -/
inductive BusError where
  | unmapped
  | badSize
  | misaligned
  | byteRegister
  | outWrite
  deriving DecidableEq, Repr

/-- Whether a place is in the REG window. -/
def Place.isReg : Place → Bool
  | .reg _ => true
  | .buf _ _ => false

/-- Whether a place is in the OUT window. -/
def Place.isOut : Place → Bool
  | .buf .out _ => true
  | .buf .msg _ | .buf .key _ | .buf .alpha _ | .reg _ => false

/-- The decode check, its conditions in the order of R62: the place the transaction acts on, or why it is BUSERR. -/
def busCheck (s : State) (isWrite : Bool) (addr : Word) (n : Nat) : Except BusError Place :=
  match locate s addr.toNat with
  | none => .error .unmapped
  | some p =>
    if n ≠ 1 ∧ n ≠ 4 then .error .badSize
    else if n = 4 ∧ addr.toNat % 4 ≠ 0 then .error .misaligned
    else if n = 1 ∧ p.isReg then .error .byteRegister
    else if isWrite ∧ p.isOut then .error .outWrite
    else .ok p

/-- A read of n bytes taking its normal effect (R64, R65, R67 to R69): the data, none where it covers an unwritten byte
of MSG, ALPHA or OUT (60_exceptions R255). -/
def readPlace (s : State) (n : Nat) : Place → Option Word
  | .reg off => some (s.readReg (regAt off))
  | .buf .key _ => some 0#32
  | .buf .msg off => (Memory.readRange s.msg off n).map leWord
  | .buf .alpha off => (Memory.readRange s.alpha off n).map leWord
  | .buf .out off => (Memory.readRange s.out off n).map leWord

/-- A write of n bytes taking its normal effect (R64, R65, R67, R68); the decode check lets none through to OUT. -/
def writePlace (s : State) (n : Nat) (v : Word) : Place → State
  | .reg off => s.writeReg (regAt off) v
  | .buf b off => s.setBuf b (Memory.writeRange (s.buf b) off (leBytes n v))

/-- The places that read normally while BUSY = 1 (R72). -/
def Place.readsWhileBusy : Place → Bool
  | .reg off => (regAt off).readsWhileBusy
  | .buf _ _ => false

/-- Whether a place is STATUS, whose writes are never dropped (R27, R72). -/
def Place.isStatus : Place → Bool
  | .reg off => regAt off == .status
  | .buf _ _ => false

/-- MemRead(addr, n) (R62, R63, R72): the response, none where it is a ModelFault. A read changes nothing (R70). -/
def busRead (s : State) (addr : Word) (n : Nat) : Option Response :=
  match busCheck s false addr n with
  | .error _ => some (.read .buserr 0#32)
  | .ok p =>
    if s.busy && !p.readsWhileBusy then some (.read .okay 0#32)
    else (readPlace s n p).map (Response.read .okay)

/-- MemWrite(addr, n, v) (R62, R63, R72): the state after it and the response. -/
def busWrite (s : State) (addr : Word) (n : Nat) (v : Word) : State × Resp :=
  match busCheck s true addr n with
  | .error _ => (s, .buserr)
  | .ok p =>
    if s.busy && !p.isStatus then (s.dropWrite, .okay)
    else (writePlace s n v p, .okay)

/-- One host transaction (R73), its response observed. -/
def perform (s : State) : Txn → Result
  | .read addr n =>
    match busRead s addr n with
    | none => .fault .unwrittenRead
    | some r => .next (s.observe r)
  | .write addr n v =>
    .next ((busWrite s addr n v).1.observe (.write (busWrite s addr n v).2))

end Sys2Proof.Machine
end

