-- ==== Sys2Proof/Machine/Script.lean ====
section
/-! DEFINITION. The host's script lines and pseudo-instructions (spec 30_encoding R99, R100), and one step of the host. -/

namespace Sys2Proof.Machine

/-- sw ADDR, V (R99). -/
def sw (addr : Nat) (v : Word) : HostLine := .txn (.write (BitVec.ofNat 32 addr) 4 v)

/-- sb ADDR, V (R99). -/
def sb (addr : Nat) (v : Byte) : HostLine := .txn (.write (BitVec.ofNat 32 addr) 1 (v.setWidth 32))

/-- lw ADDR (R99). -/
def lw (addr : Nat) : HostLine := .txn (.read (BitVec.ofNat 32 addr) 4)

/-- lb ADDR (R99). -/
def lb (addr : Nat) : HostLine := .txn (.read (BitVec.ofNat 32 addr) 1)

/-- The symbol of a register stands for its offset (R99); the reserved offsets have no symbol. -/
def regOffset (r : RegName) : Option Nat := (regMap.find? fun row => row.2 == r).map Prod.fst

/-- cmd M (R100). -/
def cmdLine (i : Instr) : HostLine := sw 0x010 (encode i)

/-- wait_idle (R100). -/
def waitIdle : HostLine := .poll 0x014#32 0x1#32 0x0#32

/-- run M (R100). -/
def runLines (i : Instr) : List HostLine := [cmdLine i, waitIdle]

/-- bytes BASE, [b0, b1, ...] (R100): whole words first, then the bytes left over. -/
def bytesLines (base : Nat) : List Byte → List HostLine
  | b0 :: b1 :: b2 :: b3 :: rest => sw base (leWord [b0, b1, b2, b3]) :: bytesLines (base + 4) rest
  | [b0, b1, b2] => [sb base b0, sb (base + 1) b1, sb (base + 2) b2]
  | [b0, b1] => [sb base b0, sb (base + 1) b1]
  | [b0] => [sb base b0]
  | [] => []

/-- clear_busyerr (R100). -/
def clearBusyErr : HostLine := sw 0x014 0x8#32

/-- Whether a poll ends with this response: OKAY and (data & MASK) = V (R99). -/
def pollEnds (mask v : Word) : Response → Bool
  | .read .okay data => data &&& mask == v
  | .read .buserr _ => false
  | .write _ => false

/-- The host's next transaction (R73, R99): a line's one transaction, or one lw of a poll, which is repeated until it
ends. A host with no line left does nothing. -/
def hostStep (s : State) : Result :=
  match s.script with
  | [] => .next s
  | .txn t :: rest => perform { s with script := rest } t
  | .poll addr mask v :: rest =>
    match busRead s addr 4 with
    | none => .fault .unwrittenRead
    | some r => .next { s.observe r with script := if pollEnds mask v r then rest else s.script }

end Sys2Proof.Machine
end

