-- ==== Sys2Proof/Machine/Turns.lean ====
section
/-! DEFINITION. The events of the core in their total order (spec 20_memory R73, R74; 00_scope R15): the engine's
completion step, and whose event comes next. -/

namespace Sys2Proof.Machine

/-- The completion step (43_commands R210): a legal latched word is that command, any other word is ILLEGAL_CMD
(60_exceptions R242, 30_encoding R94). -/
def completionStep (s : State) : Result :=
  match decode s.operands.cmd with
  | .ok i => exec i s
  | .error _ => .next (s.raiseCmdError .illegalCmd)

/-- The engine's turn: the completion step is enabled exactly when BUSY = 1 (R210); otherwise the turn passes (DESIGN CHOICE, log 1). -/
def engineTurn (s : State) : Result := if s.busy then completionStep s else .next s

/-- The next event (DESIGN CHOICE, log 1): the turn that stands first; with none listed, the engine if it is busy, else the host. -/
def nextEvent (s : State) : Result :=
  match s.turns with
  | [] => if s.busy then completionStep s else hostStep s
  | .host :: rest => hostStep { s with turns := rest }
  | .engine :: rest => engineTurn { s with turns := rest }
  | .reset :: rest => .next (State.platformReset { s with turns := rest })

/-- A CMD write of v accepted, and the engine's turn put first (DESIGN CHOICE, log 10). -/
def State.withCommand (s : State) (v : Word) : State :=
  { s.startCommand v with turns := .engine :: s.turns }

end Sys2Proof.Machine
end

