-- ==== Sys2Proof/Machine/Step.lean ====
section
/-! DEFINITION. One step of the machine: the next event of the core (spec 20_memory R73). -/

namespace Sys2Proof.Machine

/-- One event. -/
def step (s : State) : Host.Outcome State Fault Refusal := nextEvent s

/-- s with the instruction of spec/opcode_table.json's numbering as the command in flight, as an accepted CMD write of its
word leaves it (R26), and the engine's turn next: the core has no program counter (R48), so this is where a step takes its
instruction from (DESIGN CHOICE, log 10). -/
def State.withFetchWord (s : State) (nbits w : Nat) : State := s.withCommand (tableWord nbits w)

end Sys2Proof.Machine
end

