-- ==== Sys2Proof/WellFormed.lean ====
section
/-! DEFINITION. Well-formedness checks: the legal capacities (spec 00_scope R8), the host script's lines (30_encoding
R99), and the instructions. -/

namespace Sys2Proof

open Machine

/-- The legal values of the capacities (R8). -/
def Config.Caps.legal (c : Config.Caps) : Bool :=
  decide (c.msgCap % 4 = 0 ∧ 64 ≤ c.msgCap ∧ c.msgCap ≤ 2 ^ 30) &&
  decide (c.keyCap % 4 = 0 ∧ 64 ≤ c.keyCap ∧ c.keyCap ≤ 4096) &&
  decide (c.outCap % 4 = 0 ∧ 160 ≤ c.outCap ∧ c.outCap ≤ 2 ^ 30)

/-- A line of a host script has an 8- or 32-bit transaction, and sb's data is in [0, 255] (R99). -/
def wfLine : HostLine → Bool
  | .txn (.read _ n) => n == 1 || n == 4
  | .txn (.write _ n v) => n == 4 || (n == 1 && decide (v.toNat ≤ 255))
  | .poll _ _ _ => true

/-- A command has no operand field (R90), so every term of Instr is well-formed. -/
def wfInstr : Instr → Bool
  | .copy | .sha1 | .hmac | .hex | .sha1Hex | .hmacHex => true
  | .b64 | .sha1B64 | .hmacB64 | .radix | .sha1Radix | .hmacRadix => true

end Sys2Proof
end

