-- ==== Sys2Proof/Safety.lean ====
section
/-! DEFINITION. The terms in which claims about the core are stated: what the end of a command leaves (spec 43_commands
R225, 60_exceptions R248), the invariants of the state, and what two states may differ in. -/

namespace Sys2Proof.Machine

/-- The buffer's first |bs| bytes are written and are bs: BUF[0..|bs|) = bs (00_scope R14). -/
def Holds (m : Memory) (bs : List Byte) : Prop := ∀ i, i < bs.length → Memory.read m i = bs[i]?

/-- Everything the end of a command leaves alone, with or without an error (R225, R248): CMD, CFG, the length registers,
the capacities, MSG, KEY, ALPHA with their marks, STATUS.BUSYERR and STATUS's reserved bits, and the agents' own fields. No
command stays latched. The engine's internal registers are not named: they are unspecified then (R47). -/
structure KeepsOperands (s t : State) : Prop where
  caps : t.caps = s.caps
  cmd : t.cmd = s.cmd
  cfg : t.cfg = s.cfg
  msgLen : t.msgLen = s.msgLen
  keyLen : t.keyLen = s.keyLen
  alphaLen : t.alphaLen = s.alphaLen
  msg : t.msg = s.msg
  key : t.key = s.key
  alpha : t.alpha = s.alpha
  busyErr : statusBusyErr t.status = statusBusyErr s.status
  reserved : t.status &&& statusReserved = s.status &&& statusReserved
  latch : t.latch = none
  turns : t.turns = s.turns
  script : t.script = s.script
  log : t.log = s.log

/-- The end of a command with error e (R248): of STATUS, BUSY 0, DONE 1, ERR 1, ERRCODE its code; OUT, OUT_LEN, DIGEST and
everything else keep their values. -/
structure Failed (s t : State) (e : CmdError) : Prop where
  busy : statusBusy t.status = false
  done : statusDone t.status = true
  err : statusErr t.status = true
  errCode : statusErrCode t.status = e.code
  out : t.out = s.out
  outLen : t.outLen = s.outLen
  digest : t.digest = s.digest
  frame : KeepsOperands s t

/-- The successful end of a command with output o (R225): OUT[0..|o|) is o and written, the rest of OUT is as before,
OUT_LEN is |o|, DIGEST is the digest hd where there is one and unchanged where there is none, and of STATUS BUSY 0, DONE 1,
ERR 0, ERRCODE 0. -/
structure Committed (s t : State) (o : List Byte) (hd : Option Digest) : Prop where
  busy : statusBusy t.status = false
  done : statusDone t.status = true
  err : statusErr t.status = false
  errCode : statusErrCode t.status = 0#4
  out : Holds t.out o
  outRest : ∀ i, o.length ≤ i → Memory.read t.out i = Memory.read s.out i
  outLen : t.outLen = BitVec.ofNat 32 o.length
  digest : t.digest = hd.getD s.digest
  frame : KeepsOperands s t

/-- The command's completion raises e (R248). -/
def Raises (i : Instr) (s : State) (e : CmdError) : Prop := ∃ t, exec i s = .next t ∧ Failed s t e

/-- The command's completion succeeds with output o and digest hd (R225). -/
def Delivers (i : Instr) (s : State) (o : List Byte) (hd : Option Digest) : Prop :=
  ∃ t, exec i s = .next t ∧ Committed s t o hd

/-- What R27, R29, R30, R32 and R241 say of every value of STATUS: reserved bits zero, never BUSY and DONE together, ERR
only with DONE, an error code exactly with ERR, and no code above 5. -/
def StatusOk (w : Word) : Prop :=
  w &&& statusReserved = 0#32 ∧
  ¬(statusBusy w = true ∧ statusDone w = true) ∧
  (statusErr w = true → statusDone w = true) ∧
  (statusErr w = true ↔ statusErrCode w ≠ 0#4) ∧
  (statusErrCode w).toNat ≤ 5

/-- A command is latched exactly while BUSY = 1, and then the latched operands equal the registers (R28, R46). -/
def LatchOk (s : State) : Prop :=
  s.latch.isSome = s.busy ∧ ∀ l, s.latch = some l → l = s.capture s.cmd

/-- A buffer's list is in its one form and stays within the buffer's size (R40). -/
def BufOk (s : State) (b : Buf) : Prop := (s.buf b).wf ∧ ∀ c ∈ s.buf b, c.1 < s.bufCap b

/-- The buffers are in order, the capacities legal (R8), and OUT[0..OUT_LEN) is within OUT and written (R37, R40, R41). -/
def BuffersOk (s : State) : Prop :=
  s.caps.legal = true ∧ (∀ b, BufOk s b) ∧ s.outLen.toNat ≤ s.caps.outCap ∧
  ∀ i, i < s.outLen.toNat → (Memory.read s.out i).isSome = true

/-- The invariants of the machine. -/
structure State.Inv (s : State) : Prop where
  status : StatusOk s.status
  cfg : s.cfg &&& ~~~cfgFields = 0#32
  latch : LatchOk s
  buffers : BuffersOk s

/-- The address map of R61, written out: the mapped addresses. -/
def Mapped (s : State) (a : Nat) : Prop :=
  a < 0x1000 ∨ (0x1000 ≤ a ∧ a < 0x1100) ∨ (0x2000 ≤ a ∧ a < 0x2000 + s.caps.keyCap) ∨
  (0x40000000 ≤ a ∧ a < 0x40000000 + s.caps.msgCap) ∨ (0x80000000 ≤ a ∧ a < 0x80000000 + s.caps.outCap)

/-- The transactions R62 answers BUSERR, read or write alike: unmapped, of a size other than 1 and 4, a misaligned word,
or a byte access to a register. -/
def BadAccess (s : State) (addr : Word) (n : Nat) : Prop :=
  ¬Mapped s addr.toNat ∨ (n ≠ 1 ∧ n ≠ 4) ∨ (n = 4 ∧ addr.toNat % 4 ≠ 0) ∨ (n = 1 ∧ addr.toNat < 0x1000)

/-- The state with KEY forgotten: two states are equal so exactly when they differ in KEY alone. -/
def State.withoutKey (s : State) : State := { s with key := [] }

/-- Whether the command in flight uses the key (R95). -/
def State.runsHmac (s : State) : Bool :=
  s.busy && match decode s.operands.cmd with
  | .ok i => funcOf i == .hmac
  | .error _ => false

/-- The same operands and consumed bytes for a command (R226): what a command's result may depend on. -/
structure SameOperands (i : Instr) (s t : State) : Prop where
  caps : t.caps = s.caps
  operands : t.operands = s.operands
  msg : ∀ j, j < s.msgCount → Memory.read t.msg j = Memory.read s.msg j
  key : funcOf i = .hmac → ∀ j, j < s.keyCount → Memory.read t.key j = Memory.read s.key j
  alpha : encOf i = .radix → ∀ j, j < s.radix → Memory.read t.alpha j = Memory.read s.alpha j

end Sys2Proof.Machine
end

