-- ==== Sys2Proof/Certificates/Slice0/Obligations.lean ====
section
/-! DEFINITION. The statements for the provers, from the numbered rules of spec/. A command's result is stated through
Delivers (43_commands R225) and Raises (60_exceptions R248), which give every field of the state after it. -/

open Sys2Proof Sys2Proof.Machine

/-! ## Decoding -/

/-- R96: every word is exactly one command or illegal, and encoding is the other direction. -/
def Obligations.DecodesExactlyTheLegalWords : Prop :=
  ∀ w : Word,
    (∀ i, decode w = .ok i ↔ encode i = w) ∧
    ((∃ i, decode w = .ok i) ↔ w.extractLsb' 4 28 = 0#28 ∧ w.extractLsb' 0 2 ≠ 3#2)

/-- R93, R94: some words of the opcode map, and some illegal ones. -/
def Obligations.OpcodeMapWordsDecode : Prop :=
  decode 0x00000000#32 = .ok .copy ∧ decode 0x00000002#32 = .ok .hmac ∧
  decode 0x00000005#32 = .ok .sha1Hex ∧ decode 0x0000000A#32 = .ok .hmacB64 ∧
  decode 0x0000000C#32 = .ok .radix ∧ decode 0x0000000D#32 = .ok .sha1Radix ∧
  decode 0x00000003#32 = .error .reservedFunc ∧ decode 0x0000000F#32 = .error .reservedFunc ∧
  decode 0x00000010#32 = .error .reservedBits ∧ decode 0x80000001#32 = .error .reservedBits

/-! ## The completion step and the events around it -/

/-- R210: while BUSY = 1 the engine's event is the completion step, and for a word that decodes to i that is exec of i.
Whose event comes next is the model's own (log 1): the engine's where its turn stands first, or where no turn is listed. -/
def Obligations.StepRunsTheLatchedCommand : Prop :=
  ∀ s : State, s.busy = true →
    (s.turns = [] → step s = completionStep s) ∧
    (∀ ts, s.turns = .engine :: ts → step s = completionStep { s with turns := ts }) ∧
    ∀ i, decode s.operands.cmd = .ok i →
      (s.turns = [] → step s = exec i s) ∧
      ∀ ts, s.turns = .engine :: ts → step s = exec i { s with turns := ts }

/-- R242: an illegal word ends with ILLEGAL_CMD, whatever the operands, and stays readable in CMD. -/
def Obligations.IllegalWordEndsInIllegalCmd : Prop :=
  ∀ s : State, s.operands.cmd.extractLsb' 4 28 ≠ 0#28 ∨ s.operands.cmd.extractLsb' 0 2 = 3#2 →
    ∃ t, completionStep s = .next t ∧ Failed s t .illegalCmd ∧ busRead t 0x10#32 4 = some (.read .okay s.cmd)

/-- R247, with R243 to R246: which error a completion raises, by the first check that fails; the operands need not be
written. -/
def Obligations.FirstFailingCheckIsRaised : Prop :=
  ∀ s : State,
    (s.operands.cmd.extractLsb' 4 28 ≠ 0#28 ∨ s.operands.cmd.extractLsb' 0 2 = 3#2 →
      ∃ t, completionStep s = .next t ∧ Failed s t .illegalCmd) ∧
    ∀ i, decode s.operands.cmd = .ok i →
      (∀ e, (∃ t, completionStep s = .next t ∧ Failed s t e) ↔
        (if s.caps.msgCap < s.msgCount then some CmdError.msgRange
         else if funcOf i = .hmac ∧ s.caps.keyCap < s.keyCount then some CmdError.keyRange
         else if encOf i = .radix ∧ (s.radix < 2 ∨ 256 < s.radix) then some CmdError.alphaRange
         else if s.caps.outCap < encLen (encOf i) (if funcOf i = .none then s.msgCount else 20) s.radix
           then some CmdError.outRange
         else none) = some e) ∧
      (s.caps.legal = true → funcOf i ≠ .none →
        ¬∃ t, completionStep s = .next t ∧ Failed s t .outRange)

/-- R240: every completion that answers a next state ends either in an error that changes nothing but STATUS, or in a
commit whose length is the encoder's and which writes DIGEST exactly when FUNC is not NONE. -/
def Obligations.EveryCompletionFailsOrCommits : Prop :=
  ∀ (i : Instr) (s t : State), exec i s = .next t →
    (∃ e, Failed s t e) ∨
    ∃ o hd, Committed s t o hd ∧ o.length = encLen (encOf i) (sourceLen (funcOf i) s.msgCount) s.radix ∧
      (hd = none ↔ funcOf i = .none)

/-- R255 (a): a completion stops exactly when it passed every check and a byte it consumes was never written. -/
def Obligations.UnwrittenOperandStopsTheRun : Prop :=
  ∀ (i : Instr) (s : State) (f : Fault), exec i s = .fault f ↔
    f = .unwrittenOperand ∧ (∀ e, ¬Raises i s e) ∧
    ((∃ j, j < s.msgCount ∧ Memory.read s.msg j = none) ∨
     (funcOf i = .hmac ∧ ∃ j, j < s.keyCount ∧ Memory.read s.key j = none) ∨
     (encOf i = .radix ∧ ∃ j, j < s.radix ∧ Memory.read s.alpha j = none))

/-! ## The twelve commands -/

/-- R213. -/
def Obligations.CopyCopiesTheMessage : Prop :=
  encode .copy = 0x0#32 ∧ ∀ s : State,
    (∀ e, Raises .copy s e ↔
      (e = .msgRange ∧ s.caps.msgCap < s.msgCount) ∨
      (e = .outRange ∧ s.msgCount ≤ s.caps.msgCap ∧ s.caps.outCap < s.msgCount)) ∧
    ∀ m, m.length = s.msgCount → Holds s.msg m → m.length ≤ s.caps.msgCap → m.length ≤ s.caps.outCap →
      Delivers .copy s m none

/-- R214. -/
def Obligations.Sha1HashesTheMessage : Prop :=
  encode .sha1 = 0x1#32 ∧ ∀ s : State, s.caps.legal = true →
    (∀ e, Raises .sha1 s e ↔ e = .msgRange ∧ s.caps.msgCap < s.msgCount) ∧
    ∀ m, m.length = s.msgCount → Holds s.msg m → m.length ≤ s.caps.msgCap →
      Delivers .sha1 s (digestBytes (sha1Digest m)) (some (sha1Digest m))

/-- R215. -/
def Obligations.HmacAuthenticatesTheMessage : Prop :=
  encode .hmac = 0x2#32 ∧ ∀ s : State, s.caps.legal = true →
    (∀ e, Raises .hmac s e ↔
      (e = .msgRange ∧ s.caps.msgCap < s.msgCount) ∨
      (e = .keyRange ∧ s.msgCount ≤ s.caps.msgCap ∧ s.caps.keyCap < s.keyCount)) ∧
    ∀ m k, m.length = s.msgCount → Holds s.msg m → m.length ≤ s.caps.msgCap →
      k.length = s.keyCount → Holds s.key k → k.length ≤ s.caps.keyCap →
      Delivers .hmac s (digestBytes (hmacSha1 k m)) (some (hmacSha1 k m))

/-- R216. -/
def Obligations.HexEncodesTheMessage : Prop :=
  encode .hex = 0x4#32 ∧ ∀ s : State,
    (∀ e, Raises .hex s e ↔
      (e = .msgRange ∧ s.caps.msgCap < s.msgCount) ∨
      (e = .outRange ∧ s.msgCount ≤ s.caps.msgCap ∧ s.caps.outCap < 2 * s.msgCount)) ∧
    ∀ m, m.length = s.msgCount → Holds s.msg m → m.length ≤ s.caps.msgCap → 2 * m.length ≤ s.caps.outCap →
      Delivers .hex s (hexEnc m (cfgHexUpper s.operands.cfg)) none

/-- R217. -/
def Obligations.Sha1HexEncodesTheDigest : Prop :=
  encode .sha1Hex = 0x5#32 ∧ ∀ s : State, s.caps.legal = true →
    (∀ e, Raises .sha1Hex s e ↔ e = .msgRange ∧ s.caps.msgCap < s.msgCount) ∧
    ∀ m, m.length = s.msgCount → Holds s.msg m → m.length ≤ s.caps.msgCap →
      Delivers .sha1Hex s (hexEnc (digestBytes (sha1Digest m)) (cfgHexUpper s.operands.cfg)) (some (sha1Digest m))

/-- R218. -/
def Obligations.HmacHexEncodesTheDigest : Prop :=
  encode .hmacHex = 0x6#32 ∧ ∀ s : State, s.caps.legal = true →
    (∀ e, Raises .hmacHex s e ↔
      (e = .msgRange ∧ s.caps.msgCap < s.msgCount) ∨
      (e = .keyRange ∧ s.msgCount ≤ s.caps.msgCap ∧ s.caps.keyCap < s.keyCount)) ∧
    ∀ m k, m.length = s.msgCount → Holds s.msg m → m.length ≤ s.caps.msgCap →
      k.length = s.keyCount → Holds s.key k → k.length ≤ s.caps.keyCap →
      Delivers .hmacHex s (hexEnc (digestBytes (hmacSha1 k m)) (cfgHexUpper s.operands.cfg)) (some (hmacSha1 k m))

/-- R219. -/
def Obligations.B64EncodesTheMessage : Prop :=
  encode .b64 = 0x8#32 ∧ ∀ s : State,
    (∀ e, Raises .b64 s e ↔
      (e = .msgRange ∧ s.caps.msgCap < s.msgCount) ∨
      (e = .outRange ∧ s.msgCount ≤ s.caps.msgCap ∧ s.caps.outCap < 4 * ((s.msgCount + 2) / 3))) ∧
    ∀ m, m.length = s.msgCount → Holds s.msg m → m.length ≤ s.caps.msgCap →
      4 * ((m.length + 2) / 3) ≤ s.caps.outCap →
      Delivers .b64 s (b64Enc m (cfgPadChar s.operands.cfg)) none

/-- R220. -/
def Obligations.Sha1B64EncodesTheDigest : Prop :=
  encode .sha1B64 = 0x9#32 ∧ ∀ s : State, s.caps.legal = true →
    (∀ e, Raises .sha1B64 s e ↔ e = .msgRange ∧ s.caps.msgCap < s.msgCount) ∧
    ∀ m, m.length = s.msgCount → Holds s.msg m → m.length ≤ s.caps.msgCap →
      Delivers .sha1B64 s (b64Enc (digestBytes (sha1Digest m)) (cfgPadChar s.operands.cfg)) (some (sha1Digest m))

/-- R221. -/
def Obligations.HmacB64EncodesTheDigest : Prop :=
  encode .hmacB64 = 0xA#32 ∧ ∀ s : State, s.caps.legal = true →
    (∀ e, Raises .hmacB64 s e ↔
      (e = .msgRange ∧ s.caps.msgCap < s.msgCount) ∨
      (e = .keyRange ∧ s.msgCount ≤ s.caps.msgCap ∧ s.caps.keyCap < s.keyCount)) ∧
    ∀ m k, m.length = s.msgCount → Holds s.msg m → m.length ≤ s.caps.msgCap →
      k.length = s.keyCount → Holds s.key k → k.length ≤ s.caps.keyCap →
      Delivers .hmacB64 s (b64Enc (digestBytes (hmacSha1 k m)) (cfgPadChar s.operands.cfg)) (some (hmacSha1 k m))

/-- R222. -/
def Obligations.RadixEncodesTheMessage : Prop :=
  encode .radix = 0xC#32 ∧ ∀ s : State,
    (∀ e, Raises .radix s e ↔
      (e = .msgRange ∧ s.caps.msgCap < s.msgCount) ∨
      (e = .alphaRange ∧ s.msgCount ≤ s.caps.msgCap ∧ (s.radix < 2 ∨ 256 < s.radix)) ∨
      (e = .outRange ∧ s.msgCount ≤ s.caps.msgCap ∧ 2 ≤ s.radix ∧ s.radix ≤ 256 ∧
        s.caps.outCap < fullLen s.msgCount s.radix)) ∧
    ∀ m a, m.length = s.msgCount → Holds s.msg m → m.length ≤ s.caps.msgCap →
      a.length = s.radix → Holds s.alpha a → 2 ≤ a.length → a.length ≤ 256 →
      fullLen m.length a.length ≤ s.caps.outCap →
      Delivers .radix s (radixEnc m a) none

/-- R223. -/
def Obligations.Sha1RadixEncodesTheDigest : Prop :=
  encode .sha1Radix = 0xD#32 ∧ ∀ s : State, s.caps.legal = true →
    (∀ e, Raises .sha1Radix s e ↔
      (e = .msgRange ∧ s.caps.msgCap < s.msgCount) ∨
      (e = .alphaRange ∧ s.msgCount ≤ s.caps.msgCap ∧ (s.radix < 2 ∨ 256 < s.radix))) ∧
    ∀ m a, m.length = s.msgCount → Holds s.msg m → m.length ≤ s.caps.msgCap →
      a.length = s.radix → Holds s.alpha a → 2 ≤ a.length → a.length ≤ 256 →
      Delivers .sha1Radix s (radixEnc (digestBytes (sha1Digest m)) a) (some (sha1Digest m))

/-- R224. -/
def Obligations.HmacRadixEncodesTheDigest : Prop :=
  encode .hmacRadix = 0xE#32 ∧ ∀ s : State, s.caps.legal = true →
    (∀ e, Raises .hmacRadix s e ↔
      (e = .msgRange ∧ s.caps.msgCap < s.msgCount) ∨
      (e = .keyRange ∧ s.msgCount ≤ s.caps.msgCap ∧ s.caps.keyCap < s.keyCount) ∨
      (e = .alphaRange ∧ s.msgCount ≤ s.caps.msgCap ∧ s.keyCount ≤ s.caps.keyCap ∧
        (s.radix < 2 ∨ 256 < s.radix))) ∧
    ∀ m k a, m.length = s.msgCount → Holds s.msg m → m.length ≤ s.caps.msgCap →
      k.length = s.keyCount → Holds s.key k → k.length ≤ s.caps.keyCap →
      a.length = s.radix → Holds s.alpha a → 2 ≤ a.length → a.length ≤ 256 →
      Delivers .hmacRadix s (radixEnc (digestBytes (hmacSha1 k m)) a) (some (hmacSha1 k m))

/-! ## Registers and bus transactions -/

/-- R26: an accepted CMD write, for every word; and CMD reads back the last accepted word, 0 after reset. -/
def Obligations.AcceptedCmdWriteStartsTheCommand : Prop :=
  (∀ (s : State) (v : Word), s.busy = false →
    ∃ t, perform s (.write 0x10#32 4 v) = .next t ∧
      t.cmd = v ∧ t.latch = some (s.capture v) ∧ t.log = .write .okay :: s.log ∧
      statusBusy t.status = true ∧ statusDone t.status = false ∧ statusErr t.status = false ∧
      statusErrCode t.status = 0#4 ∧ statusBusyErr t.status = statusBusyErr s.status ∧
      t.status &&& statusReserved = s.status &&& statusReserved ∧
      { t with cmd := s.cmd, status := s.status, latch := s.latch, log := s.log } = s) ∧
  (∀ s : State, s.busy = false → busRead s 0x10#32 4 = some (.read .okay s.cmd)) ∧
  State.reset.cmd = 0#32

/-- R27, R31: a STATUS write is never dropped; bit 3 set clears BUSYERR, and nothing else changes. -/
def Obligations.StatusWriteClearsBusyErrOnly : Prop :=
  ∀ (s : State) (v : Word),
    ∃ t, perform s (.write 0x14#32 4 v) = .next t ∧ t.log = .write .okay :: s.log ∧
      statusBusyErr t.status = (statusBusyErr s.status && !v.getLsbD 3) ∧
      (∀ k, k ≠ 3 → t.status.getLsbD k = s.status.getLsbD k) ∧
      { t with status := s.status, log := s.log } = s

/-- R21 to R39, R65: what a word read of each register offset returns while BUSY = 0. -/
def Obligations.IdleRegisterReads : Prop :=
  ∀ s : State, s.busy = false →
    busRead s 0x000#32 4 = some (.read .okay 0x53484131#32) ∧
    busRead s 0x004#32 4 = some (.read .okay (BitVec.ofNat 32 s.caps.msgCap)) ∧
    busRead s 0x008#32 4 = some (.read .okay (BitVec.ofNat 32 s.caps.keyCap)) ∧
    busRead s 0x00C#32 4 = some (.read .okay (BitVec.ofNat 32 s.caps.outCap)) ∧
    busRead s 0x010#32 4 = some (.read .okay s.cmd) ∧
    busRead s 0x014#32 4 = some (.read .okay s.status) ∧
    busRead s 0x018#32 4 = some (.read .okay s.cfg) ∧
    busRead s 0x01C#32 4 = some (.read .okay s.msgLen) ∧
    busRead s 0x020#32 4 = some (.read .okay s.keyLen) ∧
    busRead s 0x024#32 4 = some (.read .okay s.alphaLen) ∧
    busRead s 0x028#32 4 = some (.read .okay s.outLen) ∧
    busRead s 0x030#32 4 = some (.read .okay s.digest.h0) ∧
    busRead s 0x034#32 4 = some (.read .okay s.digest.h1) ∧
    busRead s 0x038#32 4 = some (.read .okay s.digest.h2) ∧
    busRead s 0x03C#32 4 = some (.read .okay s.digest.h3) ∧
    busRead s 0x040#32 4 = some (.read .okay s.digest.h4) ∧
    ∀ a : Word, a.toNat % 4 = 0 → (a = 0x02C#32 ∨ (0x044 ≤ a.toNat ∧ a.toNat ≤ 0xFFC)) →
      busRead s a 4 = some (.read .okay 0#32)

/-- R22 to R25: ID and the capacity registers read as their constants at all times, no step changes the capacities
(a field of the model's state, log 4), and a write to one of them while BUSY = 0 is ignored. -/
def Obligations.ConstantRegistersNeverChange : Prop :=
  (∀ s : State,
    perform s (.read 0x0#32 4) = .next (s.observe (.read .okay 0x53484131#32)) ∧
    perform s (.read 0x4#32 4) = .next (s.observe (.read .okay (BitVec.ofNat 32 s.caps.msgCap))) ∧
    perform s (.read 0x8#32 4) = .next (s.observe (.read .okay (BitVec.ofNat 32 s.caps.keyCap))) ∧
    perform s (.read 0xC#32 4) = .next (s.observe (.read .okay (BitVec.ofNat 32 s.caps.outCap)))) ∧
  (∀ (s : State) (a v : Word), s.busy = false → a.toNat % 4 = 0 → a.toNat ≤ 0xC →
    perform s (.write a 4 v) = .next (s.observe (.write .okay))) ∧
  ∀ s t : State, step s = .next t → t.caps = s.caps

/-- R33 to R39: accepted word writes to the registers other than CMD and STATUS: CFG keeps its fields, the length registers
take the value, and every other register and reserved offset ignores the write. -/
def Obligations.IdleRegisterWrites : Prop :=
  ∀ (s : State) (v : Word), s.busy = false →
    perform s (.write 0x018#32 4 v) = .next { s with cfg := v &&& 0x0000FF01#32, log := .write .okay :: s.log } ∧
    perform s (.write 0x01C#32 4 v) = .next { s with msgLen := v, log := .write .okay :: s.log } ∧
    perform s (.write 0x020#32 4 v) = .next { s with keyLen := v, log := .write .okay :: s.log } ∧
    perform s (.write 0x024#32 4 v) = .next { s with alphaLen := v, log := .write .okay :: s.log } ∧
    ∀ a : Word, a.toNat % 4 = 0 → a.toNat < 0x1000 → (a.toNat ≤ 0xC ∨ 0x28 ≤ a.toNat) →
      perform s (.write a 4 v) = .next { s with log := .write .okay :: s.log }

/-- R63, R251: which transactions are answered BUSERR, and that such a transaction changes nothing and a read returns 0,
whether or not BUSY = 1. -/
def Obligations.BusErrorsChangeNothing : Prop :=
  ∀ (s : State) (addr : Word) (n : Nat) (v : Word), s.caps.legal = true →
    (perform s (.read addr n) = .next (s.observe (.read .buserr 0#32)) ↔ BadAccess s addr n) ∧
    (perform s (.write addr n v) = .next (s.observe (.write .buserr)) ↔
      BadAccess s addr n ∨ (0x80000000 ≤ addr.toNat ∧ addr.toNat < 0x80000000 + s.caps.outCap))

/-- R72: the busy lockout, for a transaction that passes the decode check while BUSY = 1. -/
def Obligations.BusyLockout : Prop :=
  ∀ (s : State) (addr : Word) (n : Nat) (v : Word), s.caps.legal = true → s.busy = true → ¬BadAccess s addr n →
    (addr = 0x14#32 → perform s (.read addr n) = .next (s.observe (.read .okay s.status))) ∧
    (addr ≠ 0x0#32 → addr ≠ 0x4#32 → addr ≠ 0x8#32 → addr ≠ 0xC#32 → addr ≠ 0x14#32 →
      perform s (.read addr n) = .next (s.observe (.read .okay 0#32))) ∧
    (addr ≠ 0x14#32 → ¬(0x80000000 ≤ addr.toNat ∧ addr.toNat < 0x80000000 + s.caps.outCap) →
      ∃ t, perform s (.write addr n v) = .next t ∧ t.log = .write .okay :: s.log ∧
        statusBusyErr t.status = true ∧ (∀ k, k ≠ 3 → t.status.getLsbD k = s.status.getLsbD k) ∧
        { t with status := s.status, log := s.log } = s)

/-- R64, R67, R68: an accepted write of one byte or of an aligned word to MSG, KEY or ALPHA stores its lanes and marks them
written, and changes nothing else. -/
def Obligations.BufferWritesStoreTheirLanes : Prop :=
  ∀ (s : State) (b : Buf) (o n : Nat) (v : Word), s.caps.legal = true → s.busy = false → b ≠ .out →
    n = 1 ∨ (n = 4 ∧ o % 4 = 0) → o < s.bufCap b →
    ∃ t, perform s (.write (BitVec.ofNat 32 (bufBase b + o)) n v) = .next t ∧
      (∀ k, k < n → Memory.read (t.buf b) (o + k) = some (v.extractLsb' (8 * k) 8)) ∧
      (∀ j, ¬(o ≤ j ∧ j < o + n) → Memory.read (t.buf b) j = Memory.read (s.buf b) j) ∧
      (∀ c, c ≠ b → t.buf c = s.buf c) ∧ t.log = .write .okay :: s.log ∧
      { t with msg := s.msg, key := s.key, alpha := s.alpha, log := s.log } = s

/-- R64, R68, R69: a read of written bytes of MSG, ALPHA or OUT while BUSY = 0 returns them, the lowest address in the
lowest lane. -/
def Obligations.BufferReadsReturnTheBytes : Prop :=
  ∀ (s : State) (b : Buf) (o : Nat), s.caps.legal = true → s.busy = false → b ≠ .key → o < s.bufCap b →
    (∀ x, Memory.read (s.buf b) o = some x →
      perform s (.read (BitVec.ofNat 32 (bufBase b + o)) 1) = .next (s.observe (.read .okay (x.setWidth 32)))) ∧
    (∀ x0 x1 x2 x3 : Byte, o % 4 = 0 → Memory.read (s.buf b) o = some x0 →
      Memory.read (s.buf b) (o + 1) = some x1 → Memory.read (s.buf b) (o + 2) = some x2 →
      Memory.read (s.buf b) (o + 3) = some x3 →
      perform s (.read (BitVec.ofNat 32 (bufBase b + o)) 4) =
        .next (s.observe (.read .okay (x3 ++ x2 ++ x1 ++ x0))))

/-- R67: an OKAY read of KEY returns 0, whatever was written, and has no other effect. -/
def Obligations.KeyReadsAsZero : Prop :=
  ∀ (s : State) (o n : Nat), s.caps.legal = true → n = 1 ∨ (n = 4 ∧ o % 4 = 0) → o < s.caps.keyCap →
    perform s (.read (BitVec.ofNat 32 (0x2000 + o)) n) = .next (s.observe (.read .okay 0#32))

/-- R255 (b): a host read stops the run exactly when, with BUSY = 0, it passes the decode check and covers a byte of MSG,
ALPHA or OUT never written; a write never does. -/
def Obligations.UnwrittenReadStopsTheRun : Prop :=
  ∀ (s : State) (addr : Word) (n : Nat), s.caps.legal = true →
    ((∃ f, perform s (.read addr n) = .fault f) ↔
      s.busy = false ∧ ¬BadAccess s addr n ∧
      ∃ b k, b ≠ .key ∧ bufBase b ≤ addr.toNat ∧ addr.toNat < bufBase b + s.bufCap b ∧ k < n ∧
        Memory.read (s.buf b) (addr.toNat - bufBase b + k) = none) ∧
    ∀ v, ∃ t, perform s (.write addr n v) = .next t

/-- R66: byte and word accesses of MSG and ALPHA see each other's bytes. -/
def Obligations.MixedWidthAccessesAgree : Prop :=
  ∀ (s t : State) (b : Buf) (o : Nat) (v : Word), s.caps.legal = true → s.busy = false → b = .msg ∨ b = .alpha →
    o < s.bufCap b →
    (perform s (.write (BitVec.ofNat 32 (bufBase b + o)) 1 v) = .next t →
      ∀ d, busRead t (BitVec.ofNat 32 (bufBase b + (o - o % 4))) 4 = some (.read .okay d) →
        d.extractLsb' (8 * (o % 4)) 8 = v.extractLsb' 0 8) ∧
    (o % 4 = 0 → perform s (.write (BitVec.ofNat 32 (bufBase b + o)) 4 v) = .next t →
      ∀ k, k < 4 → busRead t (BitVec.ofNat 32 (bufBase b + o + k)) 1 =
        some (.read .okay ((v.extractLsb' (8 * k) 8).setWidth 32)))

/-- R70: a read changes nothing but what the host has observed, and repeated at once it answers the same. -/
def Obligations.ReadsAreFreeOfSideEffects : Prop :=
  ∀ (s t : State) (addr : Word) (n : Nat), perform s (.read addr n) = .next t →
    ∃ r, t = s.observe r ∧ perform t (.read addr n) = .next (t.observe r)

/-- R40, R37, R38: no host transaction changes OUT, OUT_LEN, DIGEST or the capacities; and while BUSY = 1 none changes any
register, buffer or latched operand but STATUS.BUSYERR. -/
def Obligations.HostNeverWritesResults : Prop :=
  ∀ (s t : State) (x : Txn), perform s x = .next t →
    (t.out = s.out ∧ t.outLen = s.outLen ∧ t.digest = s.digest ∧ t.caps = s.caps) ∧
    (s.busy = true → (∀ k, k ≠ 3 → t.status.getLsbD k = s.status.getLsbD k) ∧
      { t with status := s.status, log := s.log } = s)

/-! ## Rules about the whole machine -/

/-- R28: BUSY is set only by an accepted CMD write and cleared only by the completion step or by reset. Which agent's event
a step is, and the host's line, stand in the model's own fields (log 1, log 2). -/
def Obligations.BusySetByCmdWriteClearedByCompletion : Prop :=
  ∀ s t : State, step s = .next t →
    (s.busy = false → t.busy = true →
      (s.turns = [] ∨ ∃ ts, s.turns = .host :: ts) ∧
      ∃ v rest, s.script = .txn (.write 0x10#32 4 v) :: rest ∧ t.cmd = v ∧ t.latch = some (s.capture v)) ∧
    (s.busy = true → t.busy = false →
      s.turns = [] ∨ ∃ ts, s.turns = .engine :: ts ∨ s.turns = .reset :: ts)

/-- R226: two completions of one command on the same latched operands, capacities and consumed bytes have the same result,
whatever else differs. -/
def Obligations.ResultsDependOnOperandsAlone : Prop :=
  ∀ (i : Instr) (s t : State), SameOperands i s t →
    (∀ f, exec i s = .fault f ↔ exec i t = .fault f) ∧
    ∀ s' t', exec i s = .next s' → exec i t = .next t' →
      statusBusy s'.status = statusBusy t'.status ∧ statusDone s'.status = statusDone t'.status ∧
      statusErr s'.status = statusErr t'.status ∧ statusErrCode s'.status = statusErrCode t'.status ∧
      (statusErr s'.status = false →
        s'.outLen = t'.outLen ∧
        (∀ j, j < s'.outLen.toNat → Memory.read s'.out j = Memory.read t'.out j) ∧
        (funcOf i ≠ .none → s'.digest = t'.digest))

/-- R250, R76: a host transaction during the busy window does not affect the command in flight: completing after it gives
the results of completing before it. -/
def Obligations.BusyTransactionsDoNotAffectTheCommand : Prop :=
  ∀ (s u t : State) (x : Txn), s.busy = true → perform s x = .next u → completionStep s = .next t →
    ∃ t', completionStep u = .next t' ∧
      t'.out = t.out ∧ t'.outLen = t.outLen ∧ t'.digest = t.digest ∧
      t'.cmd = t.cmd ∧ t'.cfg = t.cfg ∧ t'.msgLen = t.msgLen ∧ t'.keyLen = t.keyLen ∧ t'.alphaLen = t.alphaLen ∧
      t'.msg = t.msg ∧ t'.key = t.key ∧ t'.alpha = t.alpha ∧
      ∀ k, k ≠ 3 → t'.status.getLsbD k = t.status.getLsbD k

/-- R67, R254: the contents of KEY reach nothing but the result of an HMAC command: from two states that differ in KEY
alone, every step but an HMAC command's completion faults alike, or leaves states that differ in KEY alone, so the host
observes the same. Excluded is only the engine's event (log 1) with an HMAC command in flight: host turns in its busy window
and a reset that cancels it are included. -/
def Obligations.KeyReachesHmacResultsOnly : Prop :=
  ∀ s t : State, s.withoutKey = t.withoutKey →
    ¬(s.runsHmac = true ∧ (s.turns = [] ∨ ∃ ts, s.turns = .engine :: ts)) →
    (∀ s', step s = .next s' → ∃ t', step t = .next t' ∧ s'.withoutKey = t'.withoutKey) ∧
    ∀ f, step s = .fault f → step t = .fault f

/-- R27, R29, R30, R32, R33: every step keeps STATUS's and CFG's reserved bits zero, BUSY and DONE apart, ERR under DONE,
and ERRCODE a code of R241 exactly with ERR. -/
def Obligations.StepKeepsStatusAndCfgLegal : Prop :=
  ∀ s t : State, StatusOk s.status → s.cfg &&& ~~~cfgFields = 0#32 → step s = .next t →
    StatusOk t.status ∧ t.cfg &&& ~~~cfgFields = 0#32

/-- R46: every step keeps a command latched exactly while BUSY = 1, its latched operands equal to the registers. -/
def Obligations.StepKeepsLatchEqualToRegisters : Prop :=
  ∀ s t : State, LatchOk s → step s = .next t → LatchOk t

/-- R40, R37, R41: every step keeps the buffers' lists in their one form and inside the buffers, and OUT[0..OUT_LEN)
written. -/
def Obligations.StepKeepsBuffersInBounds : Prop :=
  ∀ s t : State, BuffersOk s → step s = .next t → BuffersOk t

/-- The invariants hold right after reset (R270). The legal capacities are those of REF, which the model puts into
State.reset (log 4). -/
def Obligations.ResetSatisfiesTheInvariants : Prop := State.reset.Inv

/-- R270, R273: the registers right after reset, no byte written, no command latched. -/
def Obligations.ResetLeavesTheSpecValues : Prop :=
  State.reset.cmd = 0#32 ∧ State.reset.status = 0#32 ∧ State.reset.cfg = 0x00003D00#32 ∧
  State.reset.msgLen = 0#32 ∧ State.reset.keyLen = 0#32 ∧ State.reset.alphaLen = 0#32 ∧
  State.reset.outLen = 0#32 ∧ digestWords State.reset.digest = [0#32, 0#32, 0#32, 0#32, 0#32] ∧
  State.reset.busy = false ∧ State.reset.latch = none ∧
  (∀ b i, Memory.read (State.reset.buf b) i = none) ∧
  cfgHexUpper State.reset.cfg = false ∧ cfgPadChar State.reset.cfg = 0x3D#8

/-- R270, R272: the platform's reset, from any state, a command in flight or not. That it leaves the agents' turns, script
and observations is the model's choice (log 8). -/
def Obligations.PlatformResetFromAnyState : Prop :=
  ∀ (s : State) (ts : List Turn), s.turns = .reset :: ts →
    ∃ t, step s = .next t ∧
      t.caps = s.caps ∧ t.cmd = 0#32 ∧ t.status = 0#32 ∧ t.cfg = 0x00003D00#32 ∧ t.msgLen = 0#32 ∧
      t.keyLen = 0#32 ∧ t.alphaLen = 0#32 ∧ t.outLen = 0#32 ∧
      digestWords t.digest = [0#32, 0#32, 0#32, 0#32, 0#32] ∧
      (∀ b i, Memory.read (t.buf b) i = none) ∧ t.latch = none ∧ t.busy = false ∧
      t.turns = ts ∧ t.script = s.script ∧ t.log = s.log

/-- R99: a poll repeats its lw until the response is OKAY and (data & MASK) = V. That each lw is one host turn is the model's
choice (log 2). -/
def Obligations.PollRepeatsUntilItMatches : Prop :=
  ∀ (s : State) (addr mask v : Word) (rest : List HostLine) (r : Response),
    s.script = .poll addr mask v :: rest → busRead s addr 4 = some r →
    ∃ t, hostStep s = .next t ∧
      ((∃ d, r = .read .okay d ∧ d &&& mask = v) → t.script = rest) ∧
      (¬(∃ d, r = .read .okay d ∧ d &&& mask = v) → t.script = s.script) ∧
      t.log = r :: s.log ∧ { t with script := s.script, log := s.log } = s

/-- R278, R74: after any finite number of host turns the command is still in flight with the operands it latched, and the
engine's turn then completes it. -/
def Obligations.CompletionFollowsAnyHostTurns : Prop :=
  ∀ (n : Nat) (s u : State), s.busy = true → s.turns = List.replicate n .host ++ [.engine] →
    Host.Core.run Sys2Proof.core n s = .next u →
    u.busy = true ∧ u.turns = [.engine] ∧ u.operands = s.operands ∧
    step u = completionStep { u with turns := [] } ∧ ∀ t, step u = .next t → t.busy = false

/-! ## The SHA-1 engine and HMAC -/

/-- R111. -/
def Obligations.RotationMovesBits : Prop :=
  ∀ (n : Nat) (x : Word) (i : Nat), 1 ≤ n → n ≤ 31 → i < 32 →
    rotl n x = (x <<< n) ||| (x >>> (32 - n)) ∧ (rotl n x).getLsbD i = x.getLsbD ((i + 32 - n) % 32)

/-- R112. -/
def Obligations.PackingIsBigEndian : Prop :=
  ∀ bs : List Byte,
    (packBE bs).length = (bs.length + 3) / 4 ∧
    (∀ i, i < bs.length → ((packBE bs).getD (i / 4) 0#32).extractLsb' (24 - 8 * (i % 4)) 8 = bs.getD i 0#8) ∧
    ∀ i, bs.length ≤ i → i < 4 * (packBE bs).length →
      ((packBE bs).getD (i / 4) 0#32).extractLsb' (24 - 8 * (i % 4)) 8 = 0#8

/-- R113. -/
def Obligations.UnpackingInvertsPacking : Prop :=
  (∀ (xs : List Word) (m : Nat), m ≤ 4 * xs.length →
    (unpackBE xs m).length = m ∧
    ∀ k, k < m → (unpackBE xs m)[k]? = some ((xs.getD (k / 4) 0#32).extractLsb' (24 - 8 * (k % 4)) 8)) ∧
  ∀ bs : List Byte, unpackBE (packBE bs) bs.length = bs

/-- R114, R115, R116: the padded array word by word, for every bit length. -/
def Obligations.PaddedArrayIsAsSpecified : Prop :=
  ∀ (xs : List Word) (len : Nat), xs.length = (len + 31) / 32 →
    len + 65 ≤ 512 * blockCount len ∧ (∀ n, len + 65 ≤ 512 * n → blockCount len ≤ n) ∧
    (padWords xs len).length = 16 * blockCount len ∧
    (∀ k, k < xs.length → k ≠ len / 32 → (padWords xs len)[k]? = xs[k]?) ∧
    (padWords xs len)[len / 32]? = some (xs.getD (len / 32) 0#32 ||| (1#32 <<< (31 - len % 32))) ∧
    (∀ k, xs.length ≤ k → k ≠ len / 32 → k < 16 * blockCount len - 1 → (padWords xs len)[k]? = some 0#32) ∧
    (padWords xs len)[16 * blockCount len - 2]? = some 0#32 ∧
    (padWords xs len)[16 * blockCount len - 1]? = some (BitVec.ofNat 32 (len % 2 ^ 32))

/-- R118. -/
def Obligations.ScheduleFollowsTheRecurrence : Prop :=
  ∀ blk : List Word, blk.length = 16 →
    (schedule blk).length = 80 ∧
    (∀ t, t < 16 → (schedule blk)[t]? = blk[t]?) ∧
    ∀ t, 16 ≤ t → t < 80 →
      (schedule blk)[t]? = some (rotl 1
        ((schedule blk).getD (t - 3) 0#32 ^^^ (schedule blk).getD (t - 8) 0#32 ^^^
         (schedule blk).getD (t - 14) 0#32 ^^^ (schedule blk).getD (t - 16) 0#32))

/-- R119 to R124: compressing a block is eighty rounds from the accumulators, then the accumulation. -/
def Obligations.CompressionIsEightyRounds : Prop :=
  ∀ (h : Digest) (blk : List Word), blk.length = 16 →
    ∃ r : Nat → WorkRegs,
      r 0 = { a := h.h0, b := h.h1, c := h.h2, d := h.h3, e := h.h4 } ∧
      (∀ t, t < 80 →
        r (t + 1) =
          { a := rotl 5 (r t).a +
              (if t < 20 then ((r t).b &&& (r t).c) ||| (~~~(r t).b &&& (r t).d)
               else if t < 40 then (r t).b ^^^ (r t).c ^^^ (r t).d
               else if t < 60 then ((r t).b &&& (r t).c) ||| ((r t).b &&& (r t).d) ||| ((r t).c &&& (r t).d)
               else (r t).b ^^^ (r t).c ^^^ (r t).d) +
              (r t).e + (schedule blk).getD t 0#32 +
              (if t < 20 then 0x5A827999#32 else if t < 40 then 0x6ED9EBA1#32
               else if t < 60 then 0x8F1BBCDC#32 else 0xCA62C1D6#32)
            b := (r t).a
            c := rotl 30 (r t).b
            d := (r t).c
            e := (r t).d }) ∧
      compress h blk =
        { h0 := h.h0 + (r 80).a, h1 := h.h1 + (r 80).b, h2 := h.h2 + (r 80).c, h3 := h.h3 + (r 80).d,
          h4 := h.h4 + (r 80).e }

/-- R117, R126: a hash compresses the N blocks of the padded array in order from the initial values. -/
def Obligations.Sha1CompressesTheBlocksInOrder : Prop :=
  (∀ (xs : List Word) (len : Nat), ∃ h : Nat → Digest,
    digestWords (h 0) = [0x67452301#32, 0xEFCDAB89#32, 0x98BADCFE#32, 0x10325476#32, 0xC3D2E1F0#32] ∧
    (∀ j, j < blockCount len → h (j + 1) = compress (h j) (((padWords xs len).drop (16 * j)).take 16)) ∧
    sha1Words xs len = h (blockCount len)) ∧
  ∀ m : List Byte, sha1Digest m = sha1Words (packBE m) (8 * m.length)

/-- R160 to R165: HMAC in its byte form. -/
def Obligations.HmacIsTwoPasses : Prop :=
  ∀ k m : List Byte,
    let k1 := if 64 < k.length then digestBytes (sha1Digest k) else k
    let k0 := k1 ++ List.replicate (64 - k1.length) 0#8
    k0.length = 64 ∧
    hmacSha1 k m =
      sha1Digest (k0.map (· ^^^ 0x5C#8) ++ digestBytes (sha1Digest (k0.map (· ^^^ 0x36#8) ++ m)))

/-! ## The encoders -/

/-- R182, R180. -/
def Obligations.HexWritesTwoDigitsPerByte : Prop :=
  ∀ (s : List Byte) (upper : Bool),
    let digits : List Byte :=
      [0x30#8, 0x31#8, 0x32#8, 0x33#8, 0x34#8, 0x35#8, 0x36#8, 0x37#8, 0x38#8, 0x39#8] ++
      (if upper then [0x41#8, 0x42#8, 0x43#8, 0x44#8, 0x45#8, 0x46#8]
       else [0x61#8, 0x62#8, 0x63#8, 0x64#8, 0x65#8, 0x66#8])
    (hexEnc s upper).length = 2 * s.length ∧
    ∀ i, i < s.length →
      (hexEnc s upper)[2 * i]? = digits[(s.getD i 0#8).toNat / 16]? ∧
      (hexEnc s upper)[2 * i + 1]? = digits[(s.getD i 0#8).toNat % 16]?

/-- R185, R186, R187: the base64 output position by position; the pad stands only in the last group. -/
def Obligations.Base64WritesGroupsOfFour : Prop :=
  ∀ (s : List Byte) (pad : Byte),
    (b64Enc s pad).length = 4 * ((s.length + 2) / 3) ∧
    (∀ g j, g < (s.length + 2) / 3 → j < 4 →
      (b64Enc s pad)[4 * g + j]? = some
        (if 8 * s.length < 8 * (3 * g) + 6 * j then pad
         else b64Symbol
          ((((s.getD (3 * g) 0#8).toNat <<< 16) ||| ((s.getD (3 * g + 1) 0#8).toNat <<< 8) |||
            (s.getD (3 * g + 2) 0#8).toNat) >>> (6 * (3 - j)) &&& 0x3F))) ∧
    (∀ g j, g + 1 < (s.length + 2) / 3 → j < 4 → ¬8 * s.length < 8 * (3 * g) + 6 * j) ∧
    ∀ n, n < 64 → (b64Symbol n).toNat =
      (if n < 26 then 0x41 + n else if n < 52 then 0x61 + (n - 26) else if n < 62 then 0x30 + (n - 52)
       else if n = 62 then 0x2B else 0x2F)

/-- R189: FullLen is the least sufficient number of symbols. -/
def Obligations.FullLenIsLeast : Prop :=
  ∀ n r : Nat, 2 ≤ r →
    2 ^ (8 * n) ≤ r ^ fullLen n r ∧ ∀ m, 2 ^ (8 * n) ≤ r ^ m → fullLen n r ≤ m

/-- R188, R190, R192: the radix output is the base-r numeral of the big-endian value, in exactly FullLen symbols. -/
def Obligations.RadixWritesThePositionalNumeral : Prop :=
  ∀ s a : List Byte, 2 ≤ a.length → a.length ≤ 256 →
    ∃ ds : List Nat,
      ds.length = fullLen s.length a.length ∧ (∀ d ∈ ds, d < a.length) ∧
      ds.foldl (fun v d => v * a.length + d) 0 =
        ∑ i ∈ Finset.range s.length, (s.getD i 0#8).toNat * 256 ^ (s.length - 1 - i) ∧
      radixEnc s a = ds.map fun d => a.getD d 0#8

/-- R193: EncLen, computed before encoding, is the length of the encoding, and is at most 160 for a digest. -/
def Obligations.EncLenIsTheOutputLength : Prop :=
  (∀ (e : Enc) (cfg : Word) (a s : List Byte), (e = .radix → 2 ≤ a.length) →
    (encodeOut e cfg a s).length = encLen e s.length a.length) ∧
  ∀ n r : Nat, encLen .raw n r = n ∧ encLen .hex n r = 2 * n ∧ encLen .b64 n r = 4 * ((n + 2) / 3) ∧
    encLen .radix n r = fullLen n r ∧ fullLen 20 r ≤ 160

/-! ## The host's event -/

/-- R73, R99: the host's event is its next line, and a sw, sb, lw or lb line is that one transaction. Whose event comes next
(log 1: the host's where its turn stands first, or where no turn is listed and BUSY = 0) and the list of lines (log 2) are
the model's own; a host with no line left does nothing. -/
def Obligations.HostTurnPerformsTheNextLine : Prop :=
  ∀ s : State,
    (∀ ts, s.turns = .host :: ts →
      step s = hostStep { s with turns := ts } ∧
      (∀ x rest, s.script = .txn x :: rest → step s = perform { s with turns := ts, script := rest } x) ∧
      (s.script = [] → step s = .next { s with turns := ts })) ∧
    (s.turns = [] → s.busy = false →
      step s = hostStep s ∧
      (∀ x rest, s.script = .txn x :: rest → step s = perform { s with script := rest } x) ∧
      (s.script = [] → step s = .next s))
end

