-- ==== Sys2Proof/Laws/State.lean ====
section
/-! SUPPORT. Every named update of the state, field by field: each lemma is true by unfolding, and simp uses it so that no
later proof opens a record update. -/

namespace Sys2Proof.Machine
section
variable (s : State) (v : Word)
@[simp] theorem State.startCommand_caps : (s.startCommand v).caps = s.caps := rfl
@[simp] theorem State.startCommand_cmd : (s.startCommand v).cmd = v := rfl
@[simp] theorem State.startCommand_status : (s.startCommand v).status = statusOnStart s.status := rfl
@[simp] theorem State.startCommand_cfg : (s.startCommand v).cfg = s.cfg := rfl
@[simp] theorem State.startCommand_msgLen : (s.startCommand v).msgLen = s.msgLen := rfl
@[simp] theorem State.startCommand_keyLen : (s.startCommand v).keyLen = s.keyLen := rfl
@[simp] theorem State.startCommand_alphaLen : (s.startCommand v).alphaLen = s.alphaLen := rfl
@[simp] theorem State.startCommand_outLen : (s.startCommand v).outLen = s.outLen := rfl
@[simp] theorem State.startCommand_digest : (s.startCommand v).digest = s.digest := rfl
@[simp] theorem State.startCommand_msg : (s.startCommand v).msg = s.msg := rfl
@[simp] theorem State.startCommand_key : (s.startCommand v).key = s.key := rfl
@[simp] theorem State.startCommand_alpha : (s.startCommand v).alpha = s.alpha := rfl
@[simp] theorem State.startCommand_out : (s.startCommand v).out = s.out := rfl
@[simp] theorem State.startCommand_latch : (s.startCommand v).latch = some (s.capture v) := rfl
@[simp] theorem State.startCommand_engine : (s.startCommand v).engine = s.engine := rfl
@[simp] theorem State.startCommand_freeIx : (s.startCommand v).freeIx = s.freeIx := rfl
@[simp] theorem State.startCommand_turns : (s.startCommand v).turns = s.turns := rfl
@[simp] theorem State.startCommand_script : (s.startCommand v).script = s.script := rfl
@[simp] theorem State.startCommand_log : (s.startCommand v).log = s.log := rfl
end
section
variable (s : State) (w : Word)
@[simp] theorem State.finish_caps : (s.finish w).caps = s.caps := rfl
@[simp] theorem State.finish_cmd : (s.finish w).cmd = s.cmd := rfl
@[simp] theorem State.finish_status : (s.finish w).status = w := rfl
@[simp] theorem State.finish_cfg : (s.finish w).cfg = s.cfg := rfl
@[simp] theorem State.finish_msgLen : (s.finish w).msgLen = s.msgLen := rfl
@[simp] theorem State.finish_keyLen : (s.finish w).keyLen = s.keyLen := rfl
@[simp] theorem State.finish_alphaLen : (s.finish w).alphaLen = s.alphaLen := rfl
@[simp] theorem State.finish_outLen : (s.finish w).outLen = s.outLen := rfl
@[simp] theorem State.finish_digest : (s.finish w).digest = s.digest := rfl
@[simp] theorem State.finish_msg : (s.finish w).msg = s.msg := rfl
@[simp] theorem State.finish_key : (s.finish w).key = s.key := rfl
@[simp] theorem State.finish_alpha : (s.finish w).alpha = s.alpha := rfl
@[simp] theorem State.finish_out : (s.finish w).out = s.out := rfl
@[simp] theorem State.finish_latch : (s.finish w).latch = none := rfl
@[simp] theorem State.finish_engine : (s.finish w).engine = Config.engineResidue s.freeIx := rfl
@[simp] theorem State.finish_freeIx : (s.finish w).freeIx = s.freeIx + 1 := rfl
@[simp] theorem State.finish_turns : (s.finish w).turns = s.turns := rfl
@[simp] theorem State.finish_script : (s.finish w).script = s.script := rfl
@[simp] theorem State.finish_log : (s.finish w).log = s.log := rfl
end
section
variable (s : State) (e : CmdError)
@[simp] theorem State.raiseCmdError_caps : (s.raiseCmdError e).caps = s.caps := rfl
@[simp] theorem State.raiseCmdError_cmd : (s.raiseCmdError e).cmd = s.cmd := rfl
@[simp] theorem State.raiseCmdError_status : (s.raiseCmdError e).status = statusOnFinish s.status true e.code := rfl
@[simp] theorem State.raiseCmdError_cfg : (s.raiseCmdError e).cfg = s.cfg := rfl
@[simp] theorem State.raiseCmdError_msgLen : (s.raiseCmdError e).msgLen = s.msgLen := rfl
@[simp] theorem State.raiseCmdError_keyLen : (s.raiseCmdError e).keyLen = s.keyLen := rfl
@[simp] theorem State.raiseCmdError_alphaLen : (s.raiseCmdError e).alphaLen = s.alphaLen := rfl
@[simp] theorem State.raiseCmdError_outLen : (s.raiseCmdError e).outLen = s.outLen := rfl
@[simp] theorem State.raiseCmdError_digest : (s.raiseCmdError e).digest = s.digest := rfl
@[simp] theorem State.raiseCmdError_msg : (s.raiseCmdError e).msg = s.msg := rfl
@[simp] theorem State.raiseCmdError_key : (s.raiseCmdError e).key = s.key := rfl
@[simp] theorem State.raiseCmdError_alpha : (s.raiseCmdError e).alpha = s.alpha := rfl
@[simp] theorem State.raiseCmdError_out : (s.raiseCmdError e).out = s.out := rfl
@[simp] theorem State.raiseCmdError_latch : (s.raiseCmdError e).latch = none := rfl
@[simp] theorem State.raiseCmdError_engine : (s.raiseCmdError e).engine = Config.engineResidue s.freeIx := rfl
@[simp] theorem State.raiseCmdError_freeIx : (s.raiseCmdError e).freeIx = s.freeIx + 1 := rfl
@[simp] theorem State.raiseCmdError_turns : (s.raiseCmdError e).turns = s.turns := rfl
@[simp] theorem State.raiseCmdError_script : (s.raiseCmdError e).script = s.script := rfl
@[simp] theorem State.raiseCmdError_log : (s.raiseCmdError e).log = s.log := rfl
end
section
variable (s : State) (o : List Byte) (hd : Option Digest)
@[simp] theorem State.commit_caps : (s.commit o hd).caps = s.caps := rfl
@[simp] theorem State.commit_cmd : (s.commit o hd).cmd = s.cmd := rfl
@[simp] theorem State.commit_status : (s.commit o hd).status = statusOnFinish s.status false 0#4 := rfl
@[simp] theorem State.commit_cfg : (s.commit o hd).cfg = s.cfg := rfl
@[simp] theorem State.commit_msgLen : (s.commit o hd).msgLen = s.msgLen := rfl
@[simp] theorem State.commit_keyLen : (s.commit o hd).keyLen = s.keyLen := rfl
@[simp] theorem State.commit_alphaLen : (s.commit o hd).alphaLen = s.alphaLen := rfl
@[simp] theorem State.commit_outLen : (s.commit o hd).outLen = BitVec.ofNat 32 o.length := rfl
@[simp] theorem State.commit_digest : (s.commit o hd).digest = hd.getD s.digest := rfl
@[simp] theorem State.commit_msg : (s.commit o hd).msg = s.msg := rfl
@[simp] theorem State.commit_key : (s.commit o hd).key = s.key := rfl
@[simp] theorem State.commit_alpha : (s.commit o hd).alpha = s.alpha := rfl
@[simp] theorem State.commit_out : (s.commit o hd).out = Memory.writeRange s.out 0 o := rfl
@[simp] theorem State.commit_latch : (s.commit o hd).latch = none := rfl
@[simp] theorem State.commit_engine : (s.commit o hd).engine = Config.engineResidue s.freeIx := rfl
@[simp] theorem State.commit_freeIx : (s.commit o hd).freeIx = s.freeIx + 1 := rfl
@[simp] theorem State.commit_turns : (s.commit o hd).turns = s.turns := rfl
@[simp] theorem State.commit_script : (s.commit o hd).script = s.script := rfl
@[simp] theorem State.commit_log : (s.commit o hd).log = s.log := rfl
end
section
variable (s : State)
@[simp] theorem State.dropWrite_caps : s.dropWrite.caps = s.caps := rfl
@[simp] theorem State.dropWrite_cmd : s.dropWrite.cmd = s.cmd := rfl
@[simp] theorem State.dropWrite_status : s.dropWrite.status = statusOnDrop s.status := rfl
@[simp] theorem State.dropWrite_cfg : s.dropWrite.cfg = s.cfg := rfl
@[simp] theorem State.dropWrite_msgLen : s.dropWrite.msgLen = s.msgLen := rfl
@[simp] theorem State.dropWrite_keyLen : s.dropWrite.keyLen = s.keyLen := rfl
@[simp] theorem State.dropWrite_alphaLen : s.dropWrite.alphaLen = s.alphaLen := rfl
@[simp] theorem State.dropWrite_outLen : s.dropWrite.outLen = s.outLen := rfl
@[simp] theorem State.dropWrite_digest : s.dropWrite.digest = s.digest := rfl
@[simp] theorem State.dropWrite_msg : s.dropWrite.msg = s.msg := rfl
@[simp] theorem State.dropWrite_key : s.dropWrite.key = s.key := rfl
@[simp] theorem State.dropWrite_alpha : s.dropWrite.alpha = s.alpha := rfl
@[simp] theorem State.dropWrite_out : s.dropWrite.out = s.out := rfl
@[simp] theorem State.dropWrite_latch : s.dropWrite.latch = s.latch := rfl
@[simp] theorem State.dropWrite_engine : s.dropWrite.engine = s.engine := rfl
@[simp] theorem State.dropWrite_freeIx : s.dropWrite.freeIx = s.freeIx := rfl
@[simp] theorem State.dropWrite_turns : s.dropWrite.turns = s.turns := rfl
@[simp] theorem State.dropWrite_script : s.dropWrite.script = s.script := rfl
@[simp] theorem State.dropWrite_log : s.dropWrite.log = s.log := rfl
end
section
variable (s : State) (r : Response)
@[simp] theorem State.observe_caps : (s.observe r).caps = s.caps := rfl
@[simp] theorem State.observe_cmd : (s.observe r).cmd = s.cmd := rfl
@[simp] theorem State.observe_status : (s.observe r).status = s.status := rfl
@[simp] theorem State.observe_cfg : (s.observe r).cfg = s.cfg := rfl
@[simp] theorem State.observe_msgLen : (s.observe r).msgLen = s.msgLen := rfl
@[simp] theorem State.observe_keyLen : (s.observe r).keyLen = s.keyLen := rfl
@[simp] theorem State.observe_alphaLen : (s.observe r).alphaLen = s.alphaLen := rfl
@[simp] theorem State.observe_outLen : (s.observe r).outLen = s.outLen := rfl
@[simp] theorem State.observe_digest : (s.observe r).digest = s.digest := rfl
@[simp] theorem State.observe_msg : (s.observe r).msg = s.msg := rfl
@[simp] theorem State.observe_key : (s.observe r).key = s.key := rfl
@[simp] theorem State.observe_alpha : (s.observe r).alpha = s.alpha := rfl
@[simp] theorem State.observe_out : (s.observe r).out = s.out := rfl
@[simp] theorem State.observe_latch : (s.observe r).latch = s.latch := rfl
@[simp] theorem State.observe_engine : (s.observe r).engine = s.engine := rfl
@[simp] theorem State.observe_freeIx : (s.observe r).freeIx = s.freeIx := rfl
@[simp] theorem State.observe_turns : (s.observe r).turns = s.turns := rfl
@[simp] theorem State.observe_script : (s.observe r).script = s.script := rfl
@[simp] theorem State.observe_log : (s.observe r).log = r :: s.log := rfl
end
section
variable (s : State) (v : Word)
@[simp] theorem State.withCommand_caps : (s.withCommand v).caps = s.caps := rfl
@[simp] theorem State.withCommand_cmd : (s.withCommand v).cmd = v := rfl
@[simp] theorem State.withCommand_status : (s.withCommand v).status = statusOnStart s.status := rfl
@[simp] theorem State.withCommand_cfg : (s.withCommand v).cfg = s.cfg := rfl
@[simp] theorem State.withCommand_msgLen : (s.withCommand v).msgLen = s.msgLen := rfl
@[simp] theorem State.withCommand_keyLen : (s.withCommand v).keyLen = s.keyLen := rfl
@[simp] theorem State.withCommand_alphaLen : (s.withCommand v).alphaLen = s.alphaLen := rfl
@[simp] theorem State.withCommand_outLen : (s.withCommand v).outLen = s.outLen := rfl
@[simp] theorem State.withCommand_digest : (s.withCommand v).digest = s.digest := rfl
@[simp] theorem State.withCommand_msg : (s.withCommand v).msg = s.msg := rfl
@[simp] theorem State.withCommand_key : (s.withCommand v).key = s.key := rfl
@[simp] theorem State.withCommand_alpha : (s.withCommand v).alpha = s.alpha := rfl
@[simp] theorem State.withCommand_out : (s.withCommand v).out = s.out := rfl
@[simp] theorem State.withCommand_latch : (s.withCommand v).latch = some (s.capture v) := rfl
@[simp] theorem State.withCommand_engine : (s.withCommand v).engine = s.engine := rfl
@[simp] theorem State.withCommand_freeIx : (s.withCommand v).freeIx = s.freeIx := rfl
@[simp] theorem State.withCommand_turns : (s.withCommand v).turns = .engine :: s.turns := rfl
@[simp] theorem State.withCommand_script : (s.withCommand v).script = s.script := rfl
@[simp] theorem State.withCommand_log : (s.withCommand v).log = s.log := rfl
end
section
variable (s : State)
@[simp] theorem State.platformReset_caps : s.platformReset.caps = s.caps := rfl
@[simp] theorem State.platformReset_cmd : s.platformReset.cmd = 0#32 := rfl
@[simp] theorem State.platformReset_status : s.platformReset.status = 0#32 := rfl
@[simp] theorem State.platformReset_cfg : s.platformReset.cfg = 0x3D00#32 := rfl
@[simp] theorem State.platformReset_msgLen : s.platformReset.msgLen = 0#32 := rfl
@[simp] theorem State.platformReset_keyLen : s.platformReset.keyLen = 0#32 := rfl
@[simp] theorem State.platformReset_alphaLen : s.platformReset.alphaLen = 0#32 := rfl
@[simp] theorem State.platformReset_outLen : s.platformReset.outLen = 0#32 := rfl
@[simp] theorem State.platformReset_digest : s.platformReset.digest = State.reset.digest := rfl
@[simp] theorem State.platformReset_msg : s.platformReset.msg = [] := rfl
@[simp] theorem State.platformReset_key : s.platformReset.key = [] := rfl
@[simp] theorem State.platformReset_alpha : s.platformReset.alpha = [] := rfl
@[simp] theorem State.platformReset_out : s.platformReset.out = [] := rfl
@[simp] theorem State.platformReset_latch : s.platformReset.latch = none := rfl
@[simp] theorem State.platformReset_engine : s.platformReset.engine = Config.engineResidue s.freeIx := rfl
@[simp] theorem State.platformReset_freeIx : s.platformReset.freeIx = s.freeIx + 1 := rfl
@[simp] theorem State.platformReset_turns : s.platformReset.turns = s.turns := rfl
@[simp] theorem State.platformReset_script : s.platformReset.script = s.script := rfl
@[simp] theorem State.platformReset_log : s.platformReset.log = s.log := rfl
end
section
variable (s : State) (b : Buf) (m : Memory)
@[simp] theorem State.setBuf_caps : (s.setBuf b m).caps = s.caps := by cases b <;> rfl
@[simp] theorem State.setBuf_cmd : (s.setBuf b m).cmd = s.cmd := by cases b <;> rfl
@[simp] theorem State.setBuf_status : (s.setBuf b m).status = s.status := by cases b <;> rfl
@[simp] theorem State.setBuf_cfg : (s.setBuf b m).cfg = s.cfg := by cases b <;> rfl
@[simp] theorem State.setBuf_msgLen : (s.setBuf b m).msgLen = s.msgLen := by cases b <;> rfl
@[simp] theorem State.setBuf_keyLen : (s.setBuf b m).keyLen = s.keyLen := by cases b <;> rfl
@[simp] theorem State.setBuf_alphaLen : (s.setBuf b m).alphaLen = s.alphaLen := by cases b <;> rfl
@[simp] theorem State.setBuf_outLen : (s.setBuf b m).outLen = s.outLen := by cases b <;> rfl
@[simp] theorem State.setBuf_digest : (s.setBuf b m).digest = s.digest := by cases b <;> rfl
@[simp] theorem State.setBuf_latch : (s.setBuf b m).latch = s.latch := by cases b <;> rfl
@[simp] theorem State.setBuf_engine : (s.setBuf b m).engine = s.engine := by cases b <;> rfl
@[simp] theorem State.setBuf_freeIx : (s.setBuf b m).freeIx = s.freeIx := by cases b <;> rfl
@[simp] theorem State.setBuf_turns : (s.setBuf b m).turns = s.turns := by cases b <;> rfl
@[simp] theorem State.setBuf_script : (s.setBuf b m).script = s.script := by cases b <;> rfl
@[simp] theorem State.setBuf_log : (s.setBuf b m).log = s.log := by cases b <;> rfl

/-- A buffer replaced reads back, and the other three are as before. -/
@[simp] theorem State.buf_setBuf (c : Buf) : (s.setBuf b m).buf c = if c = b then m else s.buf c := by
  cases b <;> cases c <;> rfl
end

section
variable (s : State)

@[simp] theorem State.buf_msg : s.buf .msg = s.msg := rfl
@[simp] theorem State.buf_key : s.buf .key = s.key := rfl
@[simp] theorem State.buf_alpha : s.buf .alpha = s.alpha := rfl
@[simp] theorem State.buf_out : s.buf .out = s.out := rfl

@[simp] theorem State.bufCap_msg : s.bufCap .msg = s.caps.msgCap := rfl
@[simp] theorem State.bufCap_key : s.bufCap .key = s.caps.keyCap := rfl
@[simp] theorem State.bufCap_alpha : s.bufCap .alpha = 256 := rfl
@[simp] theorem State.bufCap_out : s.bufCap .out = s.caps.outCap := rfl

@[simp] theorem State.setBuf_msg_eq (m : Memory) : s.setBuf .msg m = { s with msg := m } := rfl
@[simp] theorem State.setBuf_key_eq (m : Memory) : s.setBuf .key m = { s with key := m } := rfl
@[simp] theorem State.setBuf_alpha_eq (m : Memory) : s.setBuf .alpha m = { s with alpha := m } := rfl
@[simp] theorem State.setBuf_out_eq (m : Memory) : s.setBuf .out m = { s with out := m } := rfl

/-- The operands while a command is latched (R46). -/
theorem State.operands_latched (l : Latch) (h : s.latch = some l) : s.operands = l := by
  simp [State.operands, h]

/-- The operands where none is latched (log 9). -/
theorem State.operands_unlatched (h : s.latch = none) : s.operands = s.capture s.cmd := by
  simp [State.operands, h]

/-- A CMD write latches the registers as they stand (R46). -/
@[simp] theorem State.operands_startCommand (v : Word) : (s.startCommand v).operands = s.capture v := rfl
@[simp] theorem State.operands_withCommand (v : Word) : (s.withCommand v).operands = s.capture v := rfl
@[simp] theorem State.operands_observe (r : Response) : (s.observe r).operands = s.operands := rfl
@[simp] theorem State.operands_dropWrite : s.dropWrite.operands = s.operands := rfl

end

end Sys2Proof.Machine
end

