-- ==== Sys2Proof/Laws/Flags.lean ====
section
/-! SUPPORT. What each change of STATUS does to each of its fields (spec 10_state R26 to R32). -/

namespace Sys2Proof.Machine

/-- Setting one bit changes that bit alone. -/
theorem putBit_getLsbD (w : Word) (k : Nat) (hk : k < 32) (b : Bool) (i : Nat) :
    (putBit w k b).getLsbD i = if i = k then b else w.getLsbD i := by
  by_cases hi : i < 32
  · have hp : (BitVec.twoPow 32 k).getLsbD i = decide (i = k) := by
      simp only [BitVec.getLsbD_twoPow, hk, decide_true, Bool.true_and, eq_comm]
    unfold putBit
    cases b <;> by_cases hik : i = k <;>
      simp only [BitVec.getLsbD_or, BitVec.getLsbD_and, BitVec.getLsbD_not, hp, hi, if_true, if_false,
        Bool.false_eq_true] <;>
      simp [hik]
  · have hik : i ≠ k := by omega
    rw [if_neg hik, BitVec.getLsbD_of_ge _ _ (by omega), BitVec.getLsbD_of_ge _ _ (by omega)]

/-- Setting ERRCODE changes bits 11:8 alone. -/
theorem putErrCode_getLsbD (w : Word) (c : BitVec 4) (i : Nat) :
    (putErrCode w c).getLsbD i = if 8 ≤ i ∧ i < 12 then c.getLsbD (i - 8) else w.getLsbD i := by
  by_cases hi : i < 32
  · have hm : (0xFFFFF0FF#32).getLsbD i = !decide (8 ≤ i ∧ i < 12) := by
      revert hi; revert i; decide
    simp only [putErrCode, BitVec.getLsbD_or, BitVec.getLsbD_and, hm, BitVec.getLsbD_shiftLeft, hi, decide_true,
      Bool.true_and, BitVec.getLsbD_setWidth]
    by_cases h : 8 ≤ i ∧ i < 12
    · simp only [h, and_self, decide_true, Bool.not_true, Bool.and_false, Bool.false_or, if_true,
        show ¬i < 8 by omega, decide_false, Bool.not_false, Bool.true_and, show i - 8 < 32 by omega]
    · by_cases h8 : i < 8
      · simp only [h, if_false, h8, decide_true, decide_false, Bool.not_true, Bool.not_false, Bool.and_true,
          Bool.false_and, Bool.or_false]
      · simp only [h, if_false, decide_false, Bool.not_false, Bool.and_true,
          BitVec.getLsbD_of_ge c (i - 8) (by omega), Bool.and_false, Bool.or_false]
  · have h : ¬(8 ≤ i ∧ i < 12) := by omega
    rw [if_neg h, BitVec.getLsbD_of_ge _ _ (by omega), BitVec.getLsbD_of_ge _ _ (by omega)]

@[simp] theorem putBit_getElem (w : Word) (k : Nat) (hk : k < 32) (b : Bool) (i : Nat) (hi : i < 32) :
    (putBit w k b)[i] = if i = k then b else w[i] := by
  rw [← BitVec.getLsbD_eq_getElem, ← BitVec.getLsbD_eq_getElem, putBit_getLsbD w k hk]

@[simp] theorem putErrCode_getElem (w : Word) (c : BitVec 4) (i : Nat) (hi : i < 32) :
    (putErrCode w c)[i] = if 8 ≤ i ∧ i < 12 then c.getLsbD (i - 8) else w[i] := by
  rw [← BitVec.getLsbD_eq_getElem, ← BitVec.getLsbD_eq_getElem, putErrCode_getLsbD]

/-- ERRCODE of a word is its bits 11:8. -/
theorem statusErrCode_getLsbD (w : Word) (i : Nat) (hi : i < 4) :
    (statusErrCode w).getLsbD i = w.getLsbD (8 + i) := by
  simp only [statusErrCode, BitVec.getLsbD_extractLsb', hi, decide_true, Bool.true_and]

/-- Two words with the same bits 11:8 have the same ERRCODE. -/
theorem statusErrCode_congr {w w' : Word} (h : ∀ i, 8 ≤ i → i < 12 → w'.getLsbD i = w.getLsbD i) :
    statusErrCode w' = statusErrCode w := by
  apply BitVec.eq_of_getLsbD_eq
  intro i hi
  rw [statusErrCode_getLsbD _ _ hi, statusErrCode_getLsbD _ _ hi]
  exact h _ (by omega) (by omega)

theorem statusErrCode_putErrCode (w : Word) (c : BitVec 4) : statusErrCode (putErrCode w c) = c := by
  apply BitVec.eq_of_getLsbD_eq
  intro i hi
  rw [statusErrCode_getLsbD _ _ hi, putErrCode_getLsbD, if_pos (by omega), Nat.add_sub_cancel_left]

theorem statusErrCode_putBit (w : Word) (k : Nat) (hk : k < 8) (b : Bool) :
    statusErrCode (putBit w k b) = statusErrCode w := by
  apply statusErrCode_congr
  intro i h8 _
  rw [putBit_getLsbD w k (by omega), if_neg (by omega)]

/-- The reserved bits of STATUS see only themselves: a change that keeps bits 7:4 and 31:12 keeps them. -/
theorem reserved_congr {w w' : Word}
    (h : ∀ i, i < 32 → (4 ≤ i ∧ i < 8 ∨ 12 ≤ i) → w'.getLsbD i = w.getLsbD i) :
    w' &&& statusReserved = w &&& statusReserved := by
  apply BitVec.eq_of_getLsbD_eq
  intro i hi
  have hm : statusReserved.getLsbD i = decide (4 ≤ i ∧ i < 8 ∨ 12 ≤ i) := by
    clear h; revert hi; revert i; decide
  rw [BitVec.getLsbD_and, BitVec.getLsbD_and, hm]
  by_cases hr : 4 ≤ i ∧ i < 8 ∨ 12 ≤ i
  · rw [h i hi hr]
  · simp only [hr, decide_false, Bool.and_false]

section
variable (w : Word)

/-! STATUS at an accepted CMD write (R26). -/

@[simp] theorem statusBusy_onStart : statusBusy (statusOnStart w) = true := by
  simp [statusBusy, statusOnStart]
@[simp] theorem statusDone_onStart : statusDone (statusOnStart w) = false := by
  simp [statusDone, statusOnStart]
@[simp] theorem statusErr_onStart : statusErr (statusOnStart w) = false := by
  simp [statusErr, statusOnStart]
@[simp] theorem statusBusyErr_onStart : statusBusyErr (statusOnStart w) = statusBusyErr w := by
  simp [statusBusyErr, statusOnStart]
@[simp] theorem statusErrCode_onStart : statusErrCode (statusOnStart w) = 0#4 := by
  simp [statusOnStart, statusErrCode_putBit, statusErrCode_putErrCode]
@[simp] theorem reserved_onStart : statusOnStart w &&& statusReserved = w &&& statusReserved := by
  apply reserved_congr
  intro i _ hr
  have h0 : i ≠ 0 := by omega
  have h1 : i ≠ 1 := by omega
  have h2 : i ≠ 2 := by omega
  have h3 : ¬(8 ≤ i ∧ i < 12) := by omega
  simp [statusOnStart, putBit_getLsbD, putErrCode_getLsbD, h0, h1, h2, h3]

/-! STATUS at a completion (R225, R248). -/

variable (e : Bool) (c : BitVec 4)

@[simp] theorem statusBusy_onFinish : statusBusy (statusOnFinish w e c) = false := by
  simp [statusBusy, statusOnFinish]
@[simp] theorem statusDone_onFinish : statusDone (statusOnFinish w e c) = true := by
  simp [statusDone, statusOnFinish]
@[simp] theorem statusErr_onFinish : statusErr (statusOnFinish w e c) = e := by
  simp [statusErr, statusOnFinish]
@[simp] theorem statusBusyErr_onFinish : statusBusyErr (statusOnFinish w e c) = statusBusyErr w := by
  simp [statusBusyErr, statusOnFinish]
@[simp] theorem statusErrCode_onFinish : statusErrCode (statusOnFinish w e c) = c := by
  simp [statusOnFinish, statusErrCode_putErrCode]
@[simp] theorem reserved_onFinish : statusOnFinish w e c &&& statusReserved = w &&& statusReserved := by
  apply reserved_congr
  intro i _ hr
  have h0 : i ≠ 0 := by omega
  have h1 : i ≠ 1 := by omega
  have h2 : i ≠ 2 := by omega
  have h3 : ¬(8 ≤ i ∧ i < 12) := by omega
  simp [statusOnFinish, putBit_getLsbD, putErrCode_getLsbD, h0, h1, h2, h3]

/-! STATUS after a dropped write (R31). -/

@[simp] theorem statusBusy_onDrop : statusBusy (statusOnDrop w) = statusBusy w := by
  simp [statusBusy, statusOnDrop]
@[simp] theorem statusDone_onDrop : statusDone (statusOnDrop w) = statusDone w := by
  simp [statusDone, statusOnDrop]
@[simp] theorem statusErr_onDrop : statusErr (statusOnDrop w) = statusErr w := by
  simp [statusErr, statusOnDrop]
@[simp] theorem statusBusyErr_onDrop : statusBusyErr (statusOnDrop w) = true := by
  simp [statusBusyErr, statusOnDrop]
@[simp] theorem statusErrCode_onDrop : statusErrCode (statusOnDrop w) = statusErrCode w := by
  simp [statusOnDrop, statusErrCode_putBit]
@[simp] theorem reserved_onDrop : statusOnDrop w &&& statusReserved = w &&& statusReserved := by
  apply reserved_congr
  intro i _ hr
  have h3 : i ≠ 3 := by omega
  simp [statusOnDrop, putBit_getLsbD, h3]

/-! STATUS after the host writes v to it (R27). -/

variable (v : Word)

@[simp] theorem statusBusy_onWrite : statusBusy (statusOnWrite w v) = statusBusy w := by
  unfold statusOnWrite; split <;> simp [statusBusy]
@[simp] theorem statusDone_onWrite : statusDone (statusOnWrite w v) = statusDone w := by
  unfold statusOnWrite; split <;> simp [statusDone]
@[simp] theorem statusErr_onWrite : statusErr (statusOnWrite w v) = statusErr w := by
  unfold statusOnWrite; split <;> simp [statusErr]
@[simp] theorem statusBusyErr_onWrite :
    statusBusyErr (statusOnWrite w v) = (statusBusyErr w && !v.getLsbD 3) := by
  unfold statusOnWrite; split <;> simp_all [statusBusyErr]
@[simp] theorem statusErrCode_onWrite : statusErrCode (statusOnWrite w v) = statusErrCode w := by
  unfold statusOnWrite; split <;> simp [statusErrCode_putBit]
@[simp] theorem reserved_onWrite : statusOnWrite w v &&& statusReserved = w &&& statusReserved := by
  unfold statusOnWrite
  split
  · apply reserved_congr
    intro i _ hr
    have h3 : i ≠ 3 := by omega
    simp [putBit_getLsbD, h3]
  · rfl

end

/-- Every error code is one of 1 to 5 (R241). -/
theorem CmdError.code_bounds (e : CmdError) : e.code ≠ 0#4 ∧ e.code.toNat ≤ 5 := by
  cases e <;> decide

/-- Different errors have different codes (R241). -/
theorem CmdError.code_injective {e e' : CmdError} (h : e.code = e'.code) : e = e' := by
  revert h; cases e <;> cases e' <;> decide

end Sys2Proof.Machine
end

