-- ==== Sys2Proof/Laws/Memory.lean ====
section
/-! SUPPORT. Bytes and their written marks (spec 10_state R40, R41): reads after writes, ranges, and that every operation
keeps the list's one form. -/

namespace Sys2Proof.Machine

/-- Read after write, in both cases. -/
@[simp] theorem Memory.read_write (m : Memory) (i j : Nat) (v : Byte) :
    Memory.read (Memory.write m i v) j = if j = i then some v else Memory.read m j := by
  induction m with
  | nil => simp [Memory.write, Memory.read, eq_comm]
  | cons c m ih =>
    obtain ⟨k, b⟩ := c
    unfold Memory.write
    split
    · simp only [Memory.read]; split_ifs <;> first | rfl | omega
    · split
      · simp only [Memory.read]; split_ifs <;> first | rfl | omega
      · simp only [Memory.read, ih]; split_ifs <;> first | rfl | omega

/-- A listed index after a write is the written one or was listed. -/
theorem Memory.mem_write {m : Memory} {i : Nat} {v : Byte} {c : Host.Cell} (h : c ∈ Memory.write m i v) :
    c = (i, v) ∨ c ∈ m := by
  induction m with
  | nil => simpa [Memory.write] using h
  | cons d m ih =>
    obtain ⟨k, b⟩ := d
    unfold Memory.write at h
    split at h
    · simpa using h
    · split at h
      · rcases List.mem_cons.mp h with h | h
        · exact .inl h
        · exact .inr (List.mem_cons_of_mem _ h)
      · rcases List.mem_cons.mp h with h | h
        · exact .inr (h ▸ List.mem_cons_self)
        · exact (ih h).imp_right (List.mem_cons_of_mem _)

/-- A write keeps the canonical form. -/
theorem Memory.write_wf {m : Memory} (h : m.wf) (i : Nat) (v : Byte) : (Memory.write m i v).wf := by
  induction m with
  | nil => simp [Memory.write, Memory.wf]
  | cons c m ih =>
    obtain ⟨k, b⟩ := c
    obtain ⟨hk, hm⟩ := List.pairwise_cons.mp h
    unfold Memory.write
    split
    · rename_i hik
      refine List.pairwise_cons.mpr ⟨?_, h⟩
      intro d hd
      rcases List.mem_cons.mp hd with rfl | hd
      · exact hik
      · exact Nat.lt_trans hik (hk d hd)
    · split
      · subst_vars
        exact List.pairwise_cons.mpr ⟨hk, hm⟩
      · refine List.pairwise_cons.mpr ⟨?_, ih hm⟩
        intro d hd
        rcases Memory.mem_write hd with rfl | hd
        · show k < i; omega
        · exact hk d hd

/-- A range written reads back; every other byte is as before. -/
theorem Memory.read_writeRange (m : Memory) (bs : List Byte) (i j : Nat) :
    Memory.read (Memory.writeRange m i bs) j =
      if i ≤ j ∧ j < i + bs.length then bs[j - i]? else Memory.read m j := by
  induction bs generalizing m i with
  | nil =>
    have h : ¬(i ≤ j ∧ j < i + ([] : List Byte).length) := by simp only [List.length_nil]; omega
    rw [if_neg h]; rfl
  | cons b bs ih =>
    simp only [Memory.writeRange, ih, Memory.read_write, List.length_cons]
    by_cases h1 : i + 1 ≤ j ∧ j < i + 1 + bs.length
    · have h2 : i ≤ j ∧ j < i + (bs.length + 1) := by omega
      have h3 : j - i = (j - (i + 1)) + 1 := by omega
      simp [h1, h2, h3]
    · by_cases h2 : j = i
      · subst h2; simp
      · have h3 : ¬(i ≤ j ∧ j < i + (bs.length + 1)) := by omega
        rw [if_neg h1, if_neg h2, if_neg h3]

theorem Memory.mem_writeRange {m : Memory} {i : Nat} {bs : List Byte} {c : Host.Cell}
    (h : c ∈ Memory.writeRange m i bs) : (i ≤ c.1 ∧ c.1 < i + bs.length) ∨ c ∈ m := by
  induction bs generalizing m i with
  | nil => exact .inr h
  | cons b bs ih =>
    rcases ih h with h | h
    · refine .inl ?_; rw [List.length_cons]; omega
    · rcases Memory.mem_write h with rfl | h
      · refine .inl ?_; rw [List.length_cons]; show i ≤ i ∧ i < _; omega
      · exact .inr h

theorem Memory.writeRange_wf {m : Memory} (h : m.wf) (i : Nat) (bs : List Byte) :
    (Memory.writeRange m i bs).wf := by
  induction bs generalizing m i with
  | nil => exact h
  | cons b bs ih => exact ih (Memory.write_wf h i b) (i + 1)

/-- A range reads as bs exactly when it has that length and each of its bytes is written and is bs's. -/
theorem Memory.readRange_eq_some {m : Memory} {i n : Nat} {bs : List Byte} :
    Memory.readRange m i n = some bs ↔ bs.length = n ∧ ∀ k, k < n → Memory.read m (i + k) = bs[k]? := by
  induction n generalizing i bs with
  | zero => cases bs <;> simp [Memory.readRange]
  | succ n ih =>
    unfold Memory.readRange
    constructor
    · intro h
      split at h
      · cases h
      · rename_i b hb
        split at h
        · cases h
        · rename_i cs hcs
          cases h
          obtain ⟨hl, hr⟩ := ih.mp hcs
          refine ⟨by simp [hl], ?_⟩
          intro k hk
          cases k with
          | zero => simpa using hb
          | succ k =>
            have := hr k (by omega)
            rw [show i + (k + 1) = i + 1 + k by omega, this]; simp
    · rintro ⟨hl, hr⟩
      cases bs with
      | nil => simp at hl
      | cons b bs =>
        have h0 : Memory.read m i = some b := by simpa using hr 0 (by omega)
        have hrest : Memory.readRange m (i + 1) n = some bs := by
          refine ih.mpr ⟨by simpa using hl, ?_⟩
          intro k hk
          have := hr (k + 1) (by omega)
          rw [show i + 1 + k = i + (k + 1) by omega, this]; simp
        simp [h0, hrest]

/-- A range has no value exactly when one of its bytes was never written. -/
theorem Memory.readRange_eq_none {m : Memory} {i n : Nat} :
    Memory.readRange m i n = none ↔ ∃ k, k < n ∧ Memory.read m (i + k) = none := by
  induction n generalizing i with
  | zero => simp [Memory.readRange]
  | succ n ih =>
    unfold Memory.readRange
    constructor
    · intro h
      split at h
      · rename_i hb; exact ⟨0, by omega, by simpa using hb⟩
      · split at h
        · rename_i hcs
          obtain ⟨k, hk, hr⟩ := ih.mp hcs
          exact ⟨k + 1, by omega, by rw [show i + (k + 1) = i + 1 + k by omega]; exact hr⟩
        · cases h
    · rintro ⟨k, hk, hr⟩
      cases k with
      | zero =>
        have : Memory.read m i = none := by simpa using hr
        simp [this]
      | succ k =>
        have : Memory.readRange m (i + 1) n = none :=
          ih.mpr ⟨k, by omega, by rw [show i + 1 + k = i + (k + 1) by omega]; exact hr⟩
        simp only [this]
        split <;> rfl

/-- A range depends on its own bytes alone. -/
theorem Memory.readRange_congr {m m' : Memory} {i n : Nat}
    (h : ∀ k, k < n → Memory.read m' (i + k) = Memory.read m (i + k)) :
    Memory.readRange m' i n = Memory.readRange m i n := by
  induction n generalizing i with
  | zero => rfl
  | succ n ih =>
    have h0 : Memory.read m' i = Memory.read m i := by simpa using h 0 (by omega)
    have hrest := ih (i := i + 1) fun k hk => by
      rw [show i + 1 + k = i + (k + 1) by omega]; exact h (k + 1) (by omega)
    simp [Memory.readRange, h0, hrest]

/-- The n lanes of a word are n bytes. -/
@[simp] theorem leBytes_length (n : Nat) (v : Word) : (leBytes n v).length = n := by
  induction n generalizing v with
  | zero => rfl
  | succ n ih => simp [leBytes, ih]

/-- Lane k of a word is its bits 8k+7:8k (R64). -/
theorem leBytes_getElem? (n : Nat) (v : Word) (k : Nat) (hk : k < n) :
    (leBytes n v)[k]? = some (v.extractLsb' (8 * k) 8) := by
  induction n generalizing v k with
  | zero => omega
  | succ n ih =>
    cases k with
    | zero => 
      simp only [leBytes, List.getElem?_cons_zero, Option.some.injEq]
      ext i hi
      simp
    | succ k =>
      simp only [leBytes, List.getElem?_cons_succ, ih _ k (by omega), Option.some.injEq]
      ext i hi
      simp [show 8 * (k + 1) + i = 8 + (8 * k + i) by ring]

/-- The word of four bytes, lane by lane (R64). -/
theorem leWord_getLsbD (bs : List Byte) (hl : bs.length ≤ 4) (k i : Nat) (hk : k < bs.length) (hi : i < 8) :
    (leWord bs).getLsbD (8 * k + i) = bs[k].getLsbD i := by
  induction bs generalizing k with
  | nil => simp at hk
  | cons b bs ih =>
    simp only [List.length_cons] at hl hk
    cases k with
    | zero => simp [leWord, hi, show i < 32 by omega]
    | succ k =>
      have := ih (by omega) k (by omega)
      have hlt : 8 * (k + 1) + i < 32 := by omega
      have hge : ¬ 8 * (k + 1) + i < 8 := by omega
      have hb : b.getLsbD (8 * (k + 1) + i) = false := BitVec.getLsbD_of_ge _ _ (by omega)
      simp only [leWord, BitVec.getLsbD_or, BitVec.getLsbD_setWidth, hb, BitVec.getLsbD_shiftLeft, hlt, hge,
        show 8 * (k + 1) + i - 8 = 8 * k + i by omega, this, decide_true, decide_false, Bool.and_false,
        Bool.not_false, Bool.true_and, Bool.false_or, List.getElem_cons_succ]

/-! Every operation of the machine on its buffers keeps their form. -/

/-- Nothing is listed right after reset. -/
theorem State.reset_buf_wf (b : Buf) : (State.reset.buf b).wf := by cases b <;> exact List.Pairwise.nil

/-- Nothing is listed after the platform's reset. -/
theorem State.platformReset_buf_wf (s : State) (b : Buf) : (s.platformReset.buf b).wf := by
  cases b <;> exact List.Pairwise.nil

/-- An accepted buffer write keeps every buffer's form. -/
theorem State.setBuf_buf_wf {s : State} (h : ∀ b, (s.buf b).wf) (c : Buf) (off : Nat) (bs : List Byte) (b : Buf) :
    ((s.setBuf c (Memory.writeRange (s.buf c) off bs)).buf b).wf := by
  have hc := Memory.writeRange_wf (h c) off bs
  have hb := h b
  cases c <;> cases b <;> first | exact hc | exact hb

/-- A commit keeps every buffer's form. -/
theorem State.commit_buf_wf {s : State} (h : ∀ b, (s.buf b).wf) (o : List Byte) (hd : Option Digest) (b : Buf) :
    ((s.commit o hd).buf b).wf := by
  have hb := h b
  cases b <;> first | exact hb | exact Memory.writeRange_wf hb 0 o

/-- A failed command keeps every buffer's form. -/
theorem State.raiseCmdError_buf_wf {s : State} (h : ∀ b, (s.buf b).wf) (e : CmdError) (b : Buf) :
    ((s.raiseCmdError e).buf b).wf := by
  have hb := h b
  cases b <;> exact hb

end Sys2Proof.Machine
end

