-- ==== Sys2Proof/Laws/Bus.lean ====
section
/-! SUPPORT. What a host transaction can do to the core, said once (spec 20_memory R62 to R72), and what a step can do. -/

namespace Sys2Proof.Machine

/-- The changes a host transaction can make to the core's state. -/
inductive BusEffect (s : State) : State → Prop
  /-- A read, a BUSERR write, or a write to a read-only or reserved register (R21, R63, R70). -/
  | nothing : BusEffect s s
  /-- A write dropped under busy lockout (R72). -/
  | drop (hb : s.busy = true) : BusEffect s s.dropWrite
  /-- An accepted CMD write (R26). -/
  | start (hb : s.busy = false) (v : Word) : BusEffect s (s.startCommand v)
  /-- A STATUS write, never dropped (R27). -/
  | status (v : Word) : BusEffect s { s with status := statusOnWrite s.status v }
  /-- An accepted CFG write (R33). -/
  | cfg (hb : s.busy = false) (v : Word) : BusEffect s { s with cfg := v &&& cfgFields }
  /-- An accepted MSG_LEN write (R34). -/
  | msgLen (hb : s.busy = false) (v : Word) : BusEffect s { s with msgLen := v }
  /-- An accepted KEY_LEN write (R35). -/
  | keyLen (hb : s.busy = false) (v : Word) : BusEffect s { s with keyLen := v }
  /-- An accepted ALPHA_LEN write (R36). -/
  | alphaLen (hb : s.busy = false) (v : Word) : BusEffect s { s with alphaLen := v }
  /-- An accepted write of n bytes to MSG, KEY or ALPHA (R64, R67, R68). -/
  | store (hb : s.busy = false) (b : Buf) (hout : b ≠ .out) (off n : Nat) (v : Word)
      (hfit : s.caps.legal = true → off + n ≤ s.bufCap b) :
      BusEffect s (s.setBuf b (Memory.writeRange (s.buf b) off (leBytes n v)))

/-- A place the map gives for an address: the register window, or an offset of a buffer below its capacity (R61). -/
theorem locate_cases {s : State} {a : Nat} {p : Place} (h : locate s a = some p) :
    (a < 0x1000 ∧ p = .reg a) ∨
    ∃ b, p = .buf b (a - bufBase b) ∧ bufBase b ≤ a ∧ a - bufBase b < s.bufCap b := by
  unfold locate at h
  have buf : ∀ b, inBuf s b a = true → bufBase b ≤ a ∧ a - bufBase b < s.bufCap b := by
    intro b hb
    simp only [inBuf, Bool.and_eq_true, decide_eq_true_eq] at hb
    exact ⟨hb.1.1, hb.2⟩
  split at h
  · rename_i hlt; cases h; exact .inl ⟨hlt, rfl⟩
  · refine .inr ?_
    split at h
    · rename_i hb; cases h; exact ⟨_, rfl, buf _ hb⟩
    · split at h
      · rename_i hb; cases h; exact ⟨_, rfl, buf _ hb⟩
      · split at h
        · rename_i hb; cases h; exact ⟨_, rfl, buf _ hb⟩
        · split at h
          · rename_i hb; cases h; exact ⟨_, rfl, buf _ hb⟩
          · cases h

/-- What a transaction that passes the decode check satisfies (R62). -/
theorem busCheck_ok {s : State} {w : Bool} {addr : Word} {n : Nat} {p : Place}
    (h : busCheck s w addr n = .ok p) :
    locate s addr.toNat = some p ∧ (n = 1 ∨ n = 4) ∧ (n = 4 → addr.toNat % 4 = 0) ∧ (n = 1 → p.isReg = false) ∧
      (w = true → p.isOut = false) := by
  unfold busCheck at h
  split at h
  · cases h
  · rename_i q hq
    split at h
    · cases h
    · split at h
      · cases h
      · split at h
        · cases h
        · split at h
          · cases h
          · cases h
            refine ⟨hq, by omega, by omega, ?_, ?_⟩
            · intro hn; by_contra hc; simp_all
            · intro hw; by_contra hc; simp_all

/-- A word access to a register offset passes the decode check (R62, R65). -/
theorem busCheck_reg (s : State) (w : Bool) (addr : Word) (h4 : addr.toNat % 4 = 0) (hlt : addr.toNat < 0x1000) :
    busCheck s w addr 4 = .ok (.reg addr.toNat) := by
  simp [busCheck, locate, hlt, h4, Place.isOut]

/-- With legal capacities each buffer lies inside its window and the windows are disjoint (R8, R61). -/
theorem locate_buf {s : State} {a : Nat} {b : Buf} (hc : s.caps.legal = true) (h1 : bufBase b ≤ a)
    (h2 : a < bufBase b + s.bufCap b) : locate s a = some (.buf b (a - bufBase b)) := by
  simp only [Config.Caps.legal, Bool.and_eq_true, decide_eq_true_eq] at hc
  have hreg : ¬a < 0x1000 := by cases b <;> simp only [bufBase] at h1 <;> omega
  have key : ∀ c, inBuf s c a = decide (c = b) := by
    intro c
    rw [inBuf, ← Bool.decide_and, ← Bool.decide_and, decide_eq_decide]
    cases b <;> cases c <;>
      simp only [bufBase, bufWindow, State.bufCap, Config.alphaCap, reduceCtorEq, iff_false, iff_true] at h1 h2 ⊢ <;>
      omega
  unfold locate
  rw [if_neg hreg]
  cases b <;> simp [key]

/-- The base of each buffer's window is word-aligned (R61). -/
theorem bufBase_mod (b : Buf) : bufBase b % 4 = 0 := by cases b <;> rfl

/-- An access of a byte or an aligned word to a mapped byte of a buffer passes the decode check, but for a write to OUT
(R62). -/
theorem busCheck_buf {s : State} {w : Bool} {addr : Word} {n : Nat} {b : Buf} (hc : s.caps.legal = true)
    (hn : n = 1 ∨ (n = 4 ∧ addr.toNat % 4 = 0)) (h1 : bufBase b ≤ addr.toNat)
    (h2 : addr.toNat < bufBase b + s.bufCap b) (hw : w = true → b ≠ .out) :
    busCheck s w addr n = .ok (.buf b (addr.toNat - bufBase b)) := by
  unfold busCheck
  rw [locate_buf hc h1 h2]
  have ho : ¬(w = true ∧ (Place.buf b (addr.toNat - bufBase b)).isOut = true) := by
    rintro ⟨h, h'⟩; have := hw h; cases b <;> simp_all [Place.isOut]
  simp only [Place.isReg, Bool.false_eq_true, and_false, if_false, if_neg ho]
  rw [if_neg (by omega), if_neg (by omega)]

/-- The address of offset o of a buffer of legal capacity is not reduced by the 32-bit address (R61). -/
theorem toNat_bufAddr {s : State} {b : Buf} {o : Nat} (hc : s.caps.legal = true) (h : o < s.bufCap b) :
    (BitVec.ofNat 32 (bufBase b + o)).toNat = bufBase b + o := by
  simp only [Config.Caps.legal, Bool.and_eq_true, decide_eq_true_eq] at hc
  rw [BitVec.toNat_ofNat, Nat.mod_eq_of_lt]
  cases b <;> simp only [bufBase, State.bufCap, Config.alphaCap] at h ⊢ <;> omega

/-- An aligned word of a buffer lies wholly inside it, since capacities are multiples of 4 (R8, R62). -/
theorem place_fits {s : State} {w : Bool} {addr : Word} {n : Nat} {b : Buf} {off : Nat}
    (hc : s.caps.legal = true) (h : busCheck s w addr n = .ok (.buf b off)) : off + n ≤ s.bufCap b := by
  obtain ⟨hl, hn, hal, -, -⟩ := busCheck_ok h
  rcases locate_cases hl with ⟨-, h⟩ | ⟨b', h, hbase, hlt⟩
  · cases h
  · cases h
    rcases hn with rfl | rfl
    · omega
    · have h4 := hal rfl
      have hcap : s.bufCap b % 4 = 0 ∧ bufBase b % 4 = 0 := by
        simp only [Config.Caps.legal, Bool.and_eq_true, decide_eq_true_eq] at hc
        cases b <;> refine ⟨?_, rfl⟩ <;> simp only [State.bufCap, Config.alphaCap] <;> omega
      omega

/-- What a write can do to the state. -/
theorem busWrite_effect (s : State) (addr : Word) (n : Nat) (v : Word) : BusEffect s (busWrite s addr n v).1 := by
  unfold busWrite
  cases h : busCheck s true addr n with
  | error _ => exact .nothing
  | ok p =>
    by_cases hb : s.busy = true
    · cases hp : p.isStatus with
      | false => simp only [hb, hp, Bool.not_false, Bool.and_self, if_true]; exact .drop hb
      | true =>
        simp only [hb, hp, Bool.not_true, Bool.and_false, Bool.false_eq_true, if_false]
        cases p with
        | buf b off => cases hp
        | reg off =>
          have : regAt off = .status := by simpa [Place.isStatus] using hp
          simp only [writePlace, this]
          exact .status v
    · have hb : s.busy = false := by simpa using hb
      simp only [hb, Bool.false_and, Bool.false_eq_true, if_false]
      cases p with
      | reg off =>
        simp only [writePlace]
        cases regAt off <;> simp only [State.writeReg]
        case cmd => exact .start hb v
        case status => exact .status v
        case cfg => exact .cfg hb v
        case msgLen => exact .msgLen hb v
        case keyLen => exact .keyLen hb v
        case alphaLen => exact .alphaLen hb v
        all_goals exact .nothing
      | buf b off =>
        refine .store hb b ?_ off n v fun hc => place_fits hc h
        have := (busCheck_ok h).2.2.2.2 rfl
        rintro rfl
        cases this

/-- When a transaction answers a next state, its change is one of BusEffect's and one response is observed. -/
theorem perform_effect {s t : State} {x : Txn} (h : perform s x = .next t) :
    ∃ u r, BusEffect s u ∧ t = u.observe r := by
  cases x with
  | read addr n =>
    simp only [perform] at h
    split at h
    · cases h
    · rename_i r _; cases h; exact ⟨s, r, .nothing, rfl⟩
  | write addr n v =>
    simp only [perform] at h
    cases h
    exact ⟨_, _, busWrite_effect s addr n v, rfl⟩

/-- When the host's turn answers a next state: nothing left to do, or one transaction's change. -/
theorem hostStep_effect {s t : State} (h : hostStep s = .next t) :
    t = s ∨ ∃ u r l, BusEffect { s with script := l } u ∧ (t = u.observe r ∨ ∃ l', t = { u.observe r with script := l' }) := by
  unfold hostStep at h
  split at h
  · cases h; exact .inl rfl
  · obtain ⟨u, r, hu, rfl⟩ := perform_effect h
    exact .inr ⟨u, r, _, hu, .inl rfl⟩
  · split at h
    · cases h
    · cases h; exact .inr ⟨s, _, s.script, .nothing, .inr ⟨_, rfl⟩⟩

/-- What a step that answers a next state did, s0 being s with its turn taken off. -/
theorem step_cases {s t : State} (h : step s = .next t) :
    ∃ s0, (∃ ts, s0 = { s with turns := ts }) ∧
      ((s.busy = true ∧ completionStep s0 = .next t) ∨ t = s0 ∨ t = s0.platformReset ∨ hostStep s0 = .next t) := by
  unfold step nextEvent at h
  split at h
  · refine ⟨s, ⟨s.turns, rfl⟩, ?_⟩
    split at h
    · rename_i hb; exact .inl ⟨hb, h⟩
    · exact .inr (.inr (.inr h))
  · rename_i rest _; exact ⟨{ s with turns := rest }, ⟨rest, rfl⟩, .inr (.inr (.inr h))⟩
  · rename_i rest _
    refine ⟨{ s with turns := rest }, ⟨rest, rfl⟩, ?_⟩
    unfold engineTurn at h
    split at h
    · rename_i hb; exact .inl ⟨hb, h⟩
    · cases h; exact .inr (.inl rfl)
  · rename_i rest _
    cases h; exact ⟨{ s with turns := rest }, ⟨rest, rfl⟩, .inr (.inr (.inl rfl))⟩

end Sys2Proof.Machine
end

