-- ==== Sys2Proof/Laws/Access.lean ====
section
/-! SUPPORT. Bus accesses in the terms of claims: which are refused, and what those let through do (spec 20_memory R61 to
R72). -/

namespace Sys2Proof.Machine

/-- A word read of a register offset that is not locked out answers OKAY with the register (R65, R72). -/
theorem busRead_reg (s : State) (a : Word) (h4 : a.toNat % 4 = 0) (hlt : a.toNat < 0x1000) (hb : s.busy = false ∨ (regAt a.toNat).readsWhileBusy = true) :
    busRead s a 4 = some (.read .okay (s.readReg (regAt a.toNat))) := by
  unfold busRead
  rw [busCheck_reg s false a h4 hlt]
  rcases hb with hb | hb <;> simp [hb, Place.readsWhileBusy, readPlace]

/-- A word write of a register offset that is not locked out is answered OKAY and taken (R65, R72). -/
theorem busWrite_reg (s : State) (a v : Word) (h4 : a.toNat % 4 = 0) (hlt : a.toNat < 0x1000) (hb : s.busy = false ∨ regAt a.toNat = .status) :
    busWrite s a 4 v = (s.writeReg (regAt a.toNat) v, .okay) := by
  unfold busWrite
  rw [busCheck_reg s true a h4 hlt]
  rcases hb with hb | hb <;> simp [hb, Place.isStatus, writePlace]

/-- The offsets R21 does not name are reserved (R39). -/
theorem regAt_reserved {off : Nat} (h : off = 0x2C ∨ 0x44 ≤ off) : regAt off = .reserved := by
  unfold regAt regMap
  have : ∀ k, (k = 0x2C ∨ 0x44 ≤ k) → (List.find? (fun row => row.1 == k) regMap) = none := by
    intro k hk
    rw [List.find?_eq_none]
    intro x hx
    simp only [regMap, List.mem_cons, List.not_mem_nil, or_false] at hx
    simp only [beq_iff_eq]
    rcases hx with rfl|rfl|rfl|rfl|rfl|rfl|rfl|rfl|rfl|rfl|rfl|rfl|rfl|rfl|rfl|rfl <;> omega
  have := this off h
  unfold regMap at this
  rw [this]

/-- The address map of R61 as conditions on the address. -/
theorem locate_eq_none {s : State} {a : Nat} (hc : s.caps.legal = true) : locate s a = none ↔ ¬Mapped s a := by
  constructor
  · intro h hm
    rcases hm with h1 | h1 | h1 | h1 | h1
    · simp [locate, h1] at h
    · rw [locate_buf (b := .alpha) hc h1.1 h1.2] at h; cases h
    · rw [locate_buf (b := .key) hc h1.1 h1.2] at h; cases h
    · rw [locate_buf (b := .msg) hc h1.1 h1.2] at h; cases h
    · rw [locate_buf (b := .out) hc h1.1 h1.2] at h; cases h
  · intro h
    cases hl : locate s a with
    | none => rfl
    | some p =>
      exfalso; apply h
      rcases locate_cases hl with ⟨h1, -⟩ | ⟨b, -, h1, h2⟩
      · exact .inl h1
      · cases b <;> simp only [bufBase, State.bufCap, Config.alphaCap] at h1 h2 <;> unfold Mapped <;> omega

/-- A mapped address is a register exactly below 0x1000 (R61). -/
theorem isReg_iff_lt {s : State} {a : Nat} {p : Place} (h : locate s a = some p) : p.isReg = true ↔ a < 0x1000 := by
  rcases locate_cases h with ⟨h1, rfl⟩ | ⟨b, rfl, h1, h2⟩
  · simp [Place.isReg, h1]
  · have : 0x1000 ≤ a := by cases b <;> simp only [bufBase] at h1 <;> omega
    simp [Place.isReg]; omega

/-- A mapped address is in OUT exactly from 0x80000000 on (R61). -/
theorem isOut_iff_window {s : State} {a : Nat} {p : Place} (hc : s.caps.legal = true) (h : locate s a = some p) : p.isOut = true ↔ (0x80000000 ≤ a ∧ a < 0x80000000 + s.caps.outCap) := by
  constructor
  · intro ho
    rcases locate_cases h with ⟨h1, rfl⟩ | ⟨b, rfl, h1, h2⟩
    · cases ho
    · cases b <;> first | (cases ho; done) | skip
      simp only [bufBase, State.bufCap] at h1 h2; omega
  · rintro ⟨h1, h2⟩
    have := locate_buf (b := .out) hc h1 h2
    rw [this] at h; cases h; rfl

/-- Which transactions the decode check refuses (R62). -/
theorem busCheck_error_iff {s : State} {addr : Word} {n : Nat} {w : Bool} (hc : s.caps.legal = true) :
    (∃ e, busCheck s w addr n = .error e) ↔ BadAccess s addr n ∨ (w = true ∧ 0x80000000 ≤ addr.toNat ∧ addr.toNat < 0x80000000 + s.caps.outCap) := by
  unfold busCheck BadAccess
  cases hl : locate s addr.toNat with
  | none => simp [(locate_eq_none hc).mp hl]
  | some p =>
    have hm : Mapped s addr.toNat := by
      by_contra h; rw [(locate_eq_none hc).mpr h] at hl; cases hl
    have h1 := isReg_iff_lt hl
    have h2 := isOut_iff_window hc hl
    simp only [hm, not_true, false_or]
    rw [← h1, ← h2]
    split_ifs <;> simp_all

/-- An aligned offset of a buffer is an aligned address (R61). -/
theorem bufAddr_aligned {b : Buf} {o n : Nat} (h : n = 1 ∨ (n = 4 ∧ o % 4 = 0)) : n = 1 ∨ (n = 4 ∧ (bufBase b + o) % 4 = 0) := by
  have := bufBase_mod b; omega

/-- A read of a byte or an aligned word of a buffer while BUSY = 0 reads those bytes (R64). -/
theorem busRead_buf {s : State} {b : Buf} {o n : Nat} (hc : s.caps.legal = true) (hb : s.busy = false) (hn : n = 1 ∨ (n = 4 ∧ o % 4 = 0)) (ho : o < s.bufCap b) :
   busRead s (BitVec.ofNat 32 (bufBase b + o)) n = (readPlace s n (.buf b o)).map (Response.read .okay) := by
  have ha := toNat_bufAddr hc ho
  have hp : busCheck s false (BitVec.ofNat 32 (bufBase b + o)) n = .ok (.buf b o) := by
    have := busCheck_buf (s := s) (w := false) (addr := BitVec.ofNat 32 (bufBase b + o)) (n := n) (b := b) hc (by rw [ha]; exact bufAddr_aligned hn) (by omega) (by omega) (by simp)
    rwa [ha, Nat.add_sub_cancel_left] at this
  simp only [busRead, hp, hb, Bool.false_and, Bool.false_eq_true, if_false]

/-- A read of MSG, ALPHA or OUT gives the bytes there (R68, R69). -/
theorem readPlace_buf {s : State} {b : Buf} {o n : Nat} (hk : b ≠ .key) : readPlace s n (.buf b o) = (Memory.readRange (s.buf b) o n).map leWord := by
  cases b <;> first | rfl | exact absurd rfl hk

/-- The data word of one byte (R64). -/
theorem leWord_one (x : Byte) : leWord [x] = x.setWidth 32 := by simp [leWord]

/-- The data word of four bytes (R64). -/
theorem leWord_four (x0 x1 x2 x3 : Byte) : leWord [x0, x1, x2, x3] = x3 ++ x2 ++ x1 ++ x0 := by
  apply BitVec.eq_of_getLsbD_eq
  intro i hi
  have h4 : ([x0, x1, x2, x3] : List Byte).length ≤ 4 := by simp
  have := leWord_getLsbD [x0, x1, x2, x3] h4 (i / 8) (i % 8) (by simp; omega) (by omega)
  rw [show 8 * (i / 8) + i % 8 = i by omega] at this
  rw [this]
  simp only [BitVec.getLsbD_append]
  have : i / 8 = 0 ∨ i / 8 = 1 ∨ i / 8 = 2 ∨ i / 8 = 3 := by omega
  rcases this with h | h | h | h <;> simp only [h]
  · simp [show i < 8 by omega, show i % 8 = i by omega]
  · simp [show ¬ i < 8 by omega, show i - 8 < 8 by omega, show i % 8 = i - 8 by omega]
  · simp [show ¬ i < 8 by omega, show ¬ i - 8 < 8 by omega, show i - 8 - 8 < 8 by omega, show i % 8 = i - 8 - 8 by omega]
  · simp [show ¬ i < 8 by omega, show ¬ i - 8 < 8 by omega, show ¬ i - 8 - 8 < 8 by omega, show i % 8 = i - 8 - 8 - 8 by omega]

end Sys2Proof.Machine
end

