-- ==== Sys2Proof/Laws/Commands.lean ====
section
/-! SUPPORT. What a command's completion can do, said once (spec 43_commands R210): it raises the first failing check, or
delivers, or meets an unwritten operand. -/

namespace Sys2Proof.Machine

/-- Every command is the shared body at its own FUNC and ENC (R93, R210). -/
theorem exec_eq_runCommand (i : Instr) (s : State) : exec i s = runCommand (funcOf i) (encOf i) s := by
  cases i <;> rfl

/-- The checks all pass exactly when each operand is in its range (R243 to R246). -/
theorem rangeError_eq_none {s : State} {f : Func} {e : Enc} :
    s.rangeError f e = none ↔
      s.msgCount ≤ s.caps.msgCap ∧ (f = .hmac → s.keyCount ≤ s.caps.keyCap) ∧
      (e = .radix → 2 ≤ s.radix ∧ s.radix ≤ 256) ∧ encLen e (sourceLen f s.msgCount) s.radix ≤ s.caps.outCap := by
  unfold State.rangeError
  split_ifs with hm hk ha ho
  · exact ⟨nofun, fun h => by omega⟩
  · exact ⟨nofun, fun h => by have := h.2.1 hk.1; omega⟩
  · exact ⟨nofun, fun h => by have := h.2.2.1 ha.1; omega⟩
  · exact ⟨nofun, fun h => by omega⟩
  · refine ⟨fun _ => ⟨by omega, fun hf => ?_, fun he => ?_, by omega⟩, fun _ => rfl⟩
    · by_contra hc; exact hk ⟨hf, by omega⟩
    · by_contra hc; exact ha ⟨he, by omega⟩

/-- Which error is raised: the first check that fails, those before it passing (R247). -/
theorem rangeError_eq_some {s : State} {f : Func} {e : Enc} {err : CmdError} :
    s.rangeError f e = some err ↔
      (err = .msgRange ∧ s.caps.msgCap < s.msgCount) ∨
      (err = .keyRange ∧ s.msgCount ≤ s.caps.msgCap ∧ f = .hmac ∧ s.caps.keyCap < s.keyCount) ∨
      (err = .alphaRange ∧ s.msgCount ≤ s.caps.msgCap ∧ (f = .hmac → s.keyCount ≤ s.caps.keyCap) ∧
        e = .radix ∧ (s.radix < 2 ∨ 256 < s.radix)) ∨
      (err = .outRange ∧ s.msgCount ≤ s.caps.msgCap ∧ (f = .hmac → s.keyCount ≤ s.caps.keyCap) ∧
        (e = .radix → 2 ≤ s.radix ∧ s.radix ≤ 256) ∧
        s.caps.outCap < encLen e (sourceLen f s.msgCount) s.radix) := by
  unfold State.rangeError
  split_ifs with hm hk ha ho
  · constructor
    · intro h; cases h; exact .inl ⟨rfl, hm⟩
    · rintro (⟨rfl, -⟩ | ⟨-, h, -⟩ | ⟨-, h, -⟩ | ⟨-, h, -⟩) <;> first | rfl | omega
  · constructor
    · intro h; cases h; exact .inr (.inl ⟨rfl, by omega, hk⟩)
    · rintro (⟨-, h⟩ | ⟨rfl, -⟩ | ⟨-, -, h, -⟩ | ⟨-, -, h, -⟩)
      · omega
      · rfl
      · have := h hk.1; omega
      · have := h hk.1; omega
  · have hk' : f = .hmac → s.keyCount ≤ s.caps.keyCap := fun hf => by
      by_contra hc; exact hk ⟨hf, by omega⟩
    constructor
    · intro h; cases h; exact .inr (.inr (.inl ⟨rfl, by omega, hk', ha⟩))
    · rintro (⟨-, h⟩ | ⟨-, -, h⟩ | ⟨rfl, -⟩ | ⟨-, -, -, h, -⟩)
      · omega
      · exact absurd h hk
      · rfl
      · have := h ha.1; omega
  · have hk' : f = .hmac → s.keyCount ≤ s.caps.keyCap := fun hf => by
      by_contra hc; exact hk ⟨hf, by omega⟩
    have ha' : e = .radix → 2 ≤ s.radix ∧ s.radix ≤ 256 := fun he => by
      by_contra hc; exact ha ⟨he, by omega⟩
    constructor
    · intro h; cases h; exact .inr (.inr (.inr ⟨rfl, by omega, hk', ha', ho⟩))
    · rintro (⟨-, h⟩ | ⟨-, -, h⟩ | ⟨-, -, -, h⟩ | ⟨rfl, -⟩)
      · omega
      · exact absurd h hk
      · exact absurd h ha
      · rfl
  · constructor
    · exact nofun
    · rintro (⟨-, h⟩ | ⟨-, -, h⟩ | ⟨-, -, -, h⟩ | ⟨-, -, -, -, h⟩)
      · omega
      · exact absurd h hk
      · exact absurd h ha
      · omega

/-- The three ends of a completion step of a legal command (R210). -/
theorem runCommand_cases (f : Func) (e : Enc) (s : State) :
    (∃ err, s.rangeError f e = some err ∧ runCommand f e s = .next (s.raiseCmdError err)) ∨
    (s.rangeError f e = none ∧ ∃ m k a, s.message = some m ∧ s.keyBytes f = some k ∧ s.alphabet e = some a ∧
      runCommand f e s = .next (s.deliver f e m k a)) ∨
    (s.rangeError f e = none ∧ (s.message = none ∨ s.keyBytes f = none ∨ s.alphabet e = none) ∧
      runCommand f e s = .fault .unwrittenOperand) := by
  unfold runCommand
  cases hr : s.rangeError f e with
  | some err => exact .inl ⟨err, rfl, rfl⟩
  | none =>
    refine .inr ?_
    cases hm : s.message with
    | none => exact .inr ⟨rfl, .inl rfl, rfl⟩
    | some m =>
      cases hk : s.keyBytes f with
      | none => exact .inr ⟨rfl, .inr (.inl rfl), rfl⟩
      | some k =>
        cases ha : s.alphabet e with
        | none => exact .inr ⟨rfl, .inr (.inr rfl), rfl⟩
        | some a => exact .inl ⟨rfl, m, k, a, rfl, rfl, rfl, rfl⟩

/-- When the completion step answers a next state, that state is the error's or the result's (R225, R248). -/
theorem completionStep_cases {s t : State} (h : completionStep s = .next t) :
    (∃ e, t = s.raiseCmdError e) ∨
    (∃ i m k a, decode s.operands.cmd = .ok i ∧ s.rangeError (funcOf i) (encOf i) = none ∧ s.message = some m ∧
      s.keyBytes (funcOf i) = some k ∧ s.alphabet (encOf i) = some a ∧ t = s.deliver (funcOf i) (encOf i) m k a) := by
  unfold completionStep at h
  split at h
  · rename_i i hi
    rw [exec_eq_runCommand] at h
    rcases runCommand_cases (funcOf i) (encOf i) s with ⟨e, -, hr⟩ | ⟨hn, m, k, a, hm, hk, ha, hr⟩ | ⟨-, -, hr⟩
    · rw [hr] at h; cases h; exact .inl ⟨e, rfl⟩
    · rw [hr] at h; cases h; exact .inr ⟨i, m, k, a, hi, hn, hm, hk, ha, rfl⟩
    · rw [hr] at h; cases h
  · cases h; exact .inl ⟨_, rfl⟩

/-- The message is MSG[0..n) as written (R95). -/
theorem message_eq_some {s : State} {m : List Byte} :
    s.message = some m ↔ m.length = s.msgCount ∧ ∀ i, i < m.length → Memory.read s.msg i = m[i]? := by
  unfold State.message
  rw [Memory.readRange_eq_some]
  constructor
  · rintro ⟨hl, h⟩
    exact ⟨hl, fun i hi => by simpa using h i (hl ▸ hi)⟩
  · rintro ⟨hl, h⟩
    exact ⟨hl, fun i hi => by simpa using h i (hl ▸ hi)⟩

/-- The key is KEY[0..k) as written, for an HMAC command (R95). -/
theorem keyBytes_hmac_eq_some {s : State} {k : List Byte} :
    s.keyBytes .hmac = some k ↔ k.length = s.keyCount ∧ ∀ i, i < k.length → Memory.read s.key i = k[i]? := by
  unfold State.keyBytes
  rw [Memory.readRange_eq_some]
  constructor
  · rintro ⟨hl, h⟩
    exact ⟨hl, fun i hi => by simpa using h i (hl ▸ hi)⟩
  · rintro ⟨hl, h⟩
    exact ⟨hl, fun i hi => by simpa using h i (hl ▸ hi)⟩

/-- The alphabet is ALPHA[0..r) as written, for a RADIX command (R95). -/
theorem alphabet_radix_eq_some {s : State} {a : List Byte} :
    s.alphabet .radix = some a ↔ a.length = s.radix ∧ ∀ i, i < a.length → Memory.read s.alpha i = a[i]? := by
  unfold State.alphabet
  rw [Memory.readRange_eq_some]
  constructor
  · rintro ⟨hl, h⟩
    exact ⟨hl, fun i hi => by simpa using h i (hl ▸ hi)⟩
  · rintro ⟨hl, h⟩
    exact ⟨hl, fun i hi => by simpa using h i (hl ▸ hi)⟩

end Sys2Proof.Machine
end

