-- ==== Sys2Proof/Laws/Encoders.lean ====
section
/-! SUPPORT. The lengths of what the packer, the engine and the encoders give (spec 40_sha1 R112 to R115, 42_encoders R182
to R193), and what the loops of the radix encoder compute. -/

namespace Sys2Proof.Machine

/-- A block of four is packed as one word (R112), whatever follows. -/
theorem packBE_append_of_dvd (a b : List Byte) (h : 4 ∣ a.length) : packBE (a ++ b) = packBE a ++ packBE b := by
  match a with
  | [] => rfl
  | [_] | [_, _] | [_, _, _] => simp at h
  | b0 :: b1 :: b2 :: b3 :: rest =>
    have hr : 4 ∣ rest.length := by simp only [List.length_cons] at h; omega
    simp only [List.cons_append, packBE, packBE_append_of_dvd rest b hr]

theorem packBE_length (bs : List Byte) : (packBE bs).length = (bs.length + 3) / 4 := by
  match bs with
  | [] => rfl
  | [_] | [_, _] | [_, _, _] => simp [packBE]
  | b0 :: b1 :: b2 :: b3 :: rest =>
    simp only [packBE, List.length_cons, packBE_length rest]; omega

theorem flatMap_beBytes_length (xs : List Word) : (xs.flatMap beBytes).length = 4 * xs.length := by
  induction xs with
  | nil => rfl
  | cons x xs ih => simp only [List.flatMap_cons, List.length_append, ih, List.length_cons, beBytes,
      List.length_nil]; omega

/-- A digest is 20 bytes (R127). -/
theorem digestBytes_length (h : Digest) : (digestBytes h).length = 20 := by
  simp only [digestBytes, unpackBE, List.length_take, flatMap_beBytes_length, digestWords, List.length_cons,
    List.length_nil]
  omega

theorem padWords_length (xs : List Word) (len : Nat) (h : xs.length ≤ 16 * blockCount len) :
    (padWords xs len).length = 16 * blockCount len := by
  simp [padWords]; omega

theorem hexEnc_length (s : List Byte) (u : Bool) : (hexEnc s u).length = 2 * s.length := by
  induction s with
  | nil => rfl
  | cons b s ih =>
    simp only [hexEnc, List.flatMap_cons, List.length_append, List.length_cons, List.length_nil] at ih ⊢
    omega

theorem b64Enc_length (s : List Byte) (p : Byte) : (b64Enc s p).length = 4 * ((s.length + 2) / 3) := by
  unfold b64Enc
  generalize (s.length + 2) / 3 = n
  induction n with
  | zero => rfl
  | succ n ih =>
    simp only [List.range_succ, List.flatMap_append, List.length_append, ih, List.flatMap_cons, List.flatMap_nil,
      List.length_cons, List.length_nil]
    omega

/-- The value of a byte string of n bytes is below 256^n (R188). -/
theorem radixValue_lt (s : List Byte) : radixValue s < 2 ^ (8 * s.length) := by
  have key : ∀ (l : List Byte) (v k : Nat), v < 2 ^ k →
      l.foldl (fun v b => v * 256 + b.toNat) v < 2 ^ (k + 8 * l.length) := by
    intro l
    induction l with
    | nil => intro v k h; simpa using h
    | cons b l ih =>
      intro v k h
      have hb : b.toNat < 256 := b.isLt
      have : v * 256 + b.toNat < 2 ^ (k + 8) := by rw [Nat.pow_add]; omega
      have := ih _ _ this
      simpa only [List.foldl_cons, List.length_cons, show k + 8 + 8 * l.length = k + 8 * (l.length + 1) by ring]
        using this
  simpa [radixValue] using key s 0 0 (by simp)

/-- The search of R189 finds the least exponent, when its fuel reaches one. -/
theorem fullLenFrom_spec (r target : Nat) :
    ∀ fuel m, target ≤ r ^ (m + fuel) → (∀ j, j < m → r ^ j < target) →
      target ≤ r ^ fullLenFrom r target fuel (r ^ m) m ∧
      ∀ j, j < fullLenFrom r target fuel (r ^ m) m → r ^ j < target := by
  intro fuel
  induction fuel with
  | zero => intro m h hlt; exact ⟨by simpa [fullLenFrom] using h, by simpa [fullLenFrom] using hlt⟩
  | succ fuel ih =>
    intro m h hlt
    unfold fullLenFrom
    split
    · rename_i hle; exact ⟨hle, hlt⟩
    · rename_i hgt
      rw [← Nat.pow_succ]
      refine ih (m + 1) (by rwa [show m + 1 + fuel = m + (fuel + 1) by omega]) ?_
      intro j hj
      rcases Nat.lt_succ_iff_lt_or_eq.mp hj with hj | rfl
      · exact hlt j hj
      · omega

/-- The digits the loop of R190 collects: they are digits, their positional value is v, and the highest is not 0. -/
theorem radixDigits_spec (r : Nat) (hr : 2 ≤ r) :
    ∀ fuel v, v < 2 ^ fuel →
      (∀ d ∈ radixDigits r fuel v, d < r) ∧ Nat.ofDigits r (radixDigits r fuel v) = v := by
  intro fuel
  induction fuel with
  | zero =>
    intro v h
    have : v = 0 := by simpa using h
    subst this; simp [radixDigits]
  | succ fuel ih =>
    intro v h
    unfold radixDigits
    split
    · rename_i h0; subst h0; simp
    · have hdiv : v / r < 2 ^ fuel := by
        have : v / r ≤ v / 2 := Nat.div_le_div_left hr (by omega)
        rw [Nat.pow_succ] at h; omega
      obtain ⟨h1, h2⟩ := ih _ hdiv
      refine ⟨?_, ?_⟩
      · intro d hd
        rcases List.mem_cons.mp hd with rfl | hd
        · exact Nat.mod_lt _ (by omega)
        · exact h1 d hd
      · rw [Nat.ofDigits_cons, h2]; exact Nat.mod_add_div v r

/-- The loop of R190 collects at most m digits of a value below r^m. -/
theorem radixDigits_length_le (r : Nat) :
    ∀ fuel m v, v < r ^ m → (radixDigits r fuel v).length ≤ m := by
  intro fuel
  induction fuel with
  | zero => intro m v _; simp [radixDigits]
  | succ fuel ih =>
    intro m v h
    unfold radixDigits
    split
    · simp
    · rename_i h0
      cases m with
      | zero => simp at h; omega
      | succ m =>
        have : v / r < r ^ m := Nat.div_lt_of_lt_mul (by rwa [Nat.pow_succ, Nat.mul_comm] at h)
        have := ih m _ this
        simp only [List.length_cons]; omega

/-- FullLen's exponent is large enough (R189). -/
theorem le_pow_fullLen (n r : Nat) (hr : 2 ≤ r) : 2 ^ (8 * n) ≤ r ^ fullLen n r := by
  have h : 2 ^ (8 * n) ≤ r ^ (0 + 8 * n) := by rw [Nat.zero_add]; exact Nat.pow_le_pow_left hr _
  have := (fullLenFrom_spec r (2 ^ (8 * n)) (8 * n) 0 h (by omega)).1
  simpa [fullLen] using this

/-- The radix encoder's output has FullLen symbols. -/
theorem radixEnc_length (s a : List Byte) (ha : 2 ≤ a.length) :
    (radixEnc s a).length = fullLen s.length a.length := by
  have hv : radixValue s < a.length ^ fullLen s.length a.length :=
    Nat.lt_of_lt_of_le (radixValue_lt s) (le_pow_fullLen _ _ ha)
  have := radixDigits_length_le a.length (8 * s.length) _ _ hv
  simp only [radixEnc, List.length_append, List.length_replicate, List.length_map, List.length_reverse]
  omega

/-- FullLen is at most 8n. -/
theorem fullLen_le (n r : Nat) : fullLen n r ≤ 8 * n := by
  have key : ∀ fuel p m, fullLenFrom r (2 ^ (8 * n)) fuel p m ≤ m + fuel := by
    intro fuel
    induction fuel with
    | zero => intro p m; simp [fullLenFrom]
    | succ fuel ih => intro p m; unfold fullLenFrom; split; omega; have := ih (p * r) (m + 1); omega
  simpa [fullLen] using key (8 * n) 1 0

/-- What the source stage hands the encoder has the length R210 computes in advance. -/
theorem source_length (f : Func) (m k : List Byte) : (source f m k).1.length = sourceLen f m.length := by
  cases f <;> simp [source, sourceLen, digestBytes_length]

end Sys2Proof.Machine
end

