-- ==== Sys2Proof/Laws/Ends.lean ====
section
/-! SUPPORT. The two ends of a command in the terms of claims (spec 43_commands R225, 60_exceptions R247, R248). -/

namespace Sys2Proof.Machine

/-- Raising an error does what R248 says and nothing else. -/
theorem raiseCmdError_failed (s : State) (e : CmdError) : Failed s (s.raiseCmdError e) e := by
  constructor <;> first | (constructor <;> simp) | simp

/-- A commit does what R225 says and nothing else. -/
theorem commit_committed (s : State) (o : List Byte) (hd : Option Digest) : Committed s (s.commit o hd) o hd := by
  constructor
  case frame => constructor <;> simp
  case out => intro i hi; simp [Memory.read_writeRange, hi]
  case outRest => intro i hi; simp [Memory.read_writeRange, Nat.not_lt.mpr hi]
  all_goals simp

/-- A command ends with at most one error (R247). -/
theorem Failed.error_unique {s t : State} {e e' : CmdError} (h : Failed s t e) (h' : Failed s t e') : e = e' :=
  CmdError.code_injective (h.errCode.symm.trans h'.errCode)

/-- The completion raises exactly the first failing check (R247). -/
theorem runCommand_raises_iff (f : Func) (e : Enc) (s : State) (err : CmdError) :
    (∃ t, runCommand f e s = .next t ∧ Failed s t err) ↔ s.rangeError f e = some err := by
  rcases runCommand_cases f e s with ⟨e1, h1, hr⟩ | ⟨h1, m, k, a, -, -, -, hr⟩ | ⟨h1, -, hr⟩
  · rw [hr, h1]
    constructor
    · rintro ⟨t, ht, hf⟩; cases ht; rw [Failed.error_unique (raiseCmdError_failed s e1) hf]
    · intro h; cases h; exact ⟨_, rfl, raiseCmdError_failed _ _⟩
  · rw [hr, h1]
    constructor
    · rintro ⟨t, ht, hf⟩; cases ht; have := hf.err; rw [State.deliver, (commit_committed _ _ _).err] at this; cases this
    · intro h; cases h
  · rw [hr, h1]
    constructor
    · rintro ⟨t, ht, hf⟩; cases ht
    · intro h; cases h

/-- A command raises exactly the first failing check (R247). -/
theorem raises_iff_rangeError (i : Instr) (s : State) (err : CmdError) :
    Raises i s err ↔ s.rangeError (funcOf i) (encOf i) = some err := by
  unfold Raises; rw [exec_eq_runCommand]; exact runCommand_raises_iff _ _ _ _

/-- A digest is encoded in at most 160 bytes (R193). -/
theorem encLen_digest_le (e : Enc) (r : Nat) : encLen e 20 r ≤ 160 := by
  cases e <;> simp only [encLen] <;> first | omega | (have := fullLen_le 20 r; omega)

/-- OUT holds at least 160 bytes (R8). -/
theorem outCap_of_legal {c : Config.Caps} (h : c.legal = true) : 160 ≤ c.outCap := by
  simp only [Config.Caps.legal, Bool.and_eq_true, decide_eq_true_eq] at h; omega

/-- A command whose checks pass and whose operands are written delivers (R210). -/
theorem delivers_of_operands {i : Instr} {s : State} {m k a : List Byte} (hr : s.rangeError (funcOf i) (encOf i) = none)
    (hm : s.message = some m) (hk : s.keyBytes (funcOf i) = some k) (ha : s.alphabet (encOf i) = some a) :
    Delivers i s (encodeOut (encOf i) s.operands.cfg a (source (funcOf i) m k).1) (source (funcOf i) m k).2 := by
  refine ⟨_, ?_, commit_committed _ _ _⟩
  rw [exec_eq_runCommand]; unfold runCommand; rw [hr, hm, hk, ha]; rfl

end Sys2Proof.Machine
end

