-- ==== Sys2Proof/Laws/Invariant.lean ====
section
/-! SUPPORT. The one induction over a step: a property that each kind of event keeps, every step keeps; and the parts of it
about STATUS and about the command in flight. -/

namespace Sys2Proof.Machine

/-- The accepted CMD write keeps STATUS legal (R26). -/
theorem statusOk_onStart {w : Word} (h : StatusOk w) : StatusOk (statusOnStart w) := by
  obtain ⟨h1, -⟩ := h
  simp [StatusOk, h1]

/-- The end of a command with an error leaves STATUS legal (R248). -/
theorem statusOk_onError {w : Word} (e : CmdError) (h : StatusOk w) : StatusOk (statusOnFinish w true e.code) := by
  obtain ⟨h1, -⟩ := h
  simp [StatusOk, h1, (CmdError.code_bounds e).1, (CmdError.code_bounds e).2]

/-- The successful end of a command leaves STATUS legal (R225). -/
theorem statusOk_onCommit {w : Word} (h : StatusOk w) : StatusOk (statusOnFinish w false 0#4) := by
  obtain ⟨h1, -⟩ := h
  simp [StatusOk, h1]

/-- A dropped write keeps STATUS legal (R72). -/
theorem statusOk_onDrop {w : Word} (h : StatusOk w) : StatusOk (statusOnDrop w) := by
  simpa [StatusOk] using h

/-- A STATUS write keeps STATUS legal (R27). -/
theorem statusOk_onWrite {w : Word} (v : Word) (h : StatusOk w) : StatusOk (statusOnWrite w v) := by
  simpa [StatusOk] using h

/-- The operands as naturals depend on the latched operands alone (R95). -/
theorem operands_congr {s u : State} (h : u.operands = s.operands) : u.msgCount = s.msgCount ∧ u.keyCount = s.keyCount ∧ u.radix = s.radix := by
  simp [State.msgCount, State.keyCount, State.radix, h]

/-- The checks depend on the latched operands and the capacities alone (R242 to R246). -/
theorem rangeError_congr {s u : State} (h : u.operands = s.operands) (hc : u.caps = s.caps) (f e) : u.rangeError f e = s.rangeError f e := by
  obtain ⟨h1, h2, h3⟩ := operands_congr h
  simp only [State.rangeError, h1, h2, h3, hc]

/-- While BUSY = 1 a transaction changes STATUS.BUSYERR at most (R72). -/
theorem BusEffect.of_busy {s u : State} (hb : s.busy = true) (h : BusEffect s u) : ∃ w, u = { s with status := w } ∧ statusBusy w = true ∧ (∀ k, k ≠ 3 → w.getLsbD k = s.status.getLsbD k) := by
  have nb : s.busy = false → False := by simp [hb]
  cases h
  all_goals first | (exfalso; exact nb ‹_›) | skip
  · exact ⟨s.status, rfl, hb, by simp⟩
  · refine ⟨_, rfl, by simp only [statusBusy_onDrop]; exact hb, ?_⟩
    intro k hk; unfold statusOnDrop; rw [putBit_getLsbD _ _ (by decide), if_neg hk]
  · refine ⟨_, rfl, by simp only [statusBusy_onWrite]; exact hb, ?_⟩
    intro k hk; unfold statusOnWrite; split
    · rw [putBit_getLsbD _ _ (by decide), if_neg hk]
    · rfl

/-- A host turn while BUSY = 1 leaves the command in flight (R74, R250). -/
theorem hostStep_of_busy {s t : State} (hb : s.busy = true) (h : hostStep s = .next t) : t.busy = true ∧ t.turns = s.turns ∧ t.operands = s.operands := by
  rcases hostStep_effect h with rfl | ⟨u, r, l, hu, ht⟩
  · exact ⟨hb, rfl, rfl⟩
  · obtain ⟨w, rfl, hw, hk⟩ := BusEffect.of_busy (s := { s with script := l }) hb hu
    rcases ht with rfl | ⟨l', rfl⟩ <;> exact ⟨hw, rfl, rfl⟩

/-- The end of a command changes STATUS alike whatever BUSYERR is. -/
theorem statusOnFinish_congr {w w' : Word} (h : ∀ k, k ≠ 3 → w'.getLsbD k = w.getLsbD k) (e c) : ∀ k, k ≠ 3 → (statusOnFinish w' e c).getLsbD k = (statusOnFinish w e c).getLsbD k := by
  intro k hk
  simp only [statusOnFinish, putErrCode_getLsbD, putBit_getLsbD _ _ (show 2 < 32 by decide), putBit_getLsbD _ _ (show 1 < 32 by decide), putBit_getLsbD _ _ (show 0 < 32 by decide), h k hk]

/-- A property that every event keeps is kept by every step. -/
theorem step_preserves {P : State → Prop}
    (hturn : ∀ s ts, P s → P { s with turns := ts })
    (hscript : ∀ s l, P s → P { s with script := l })
    (hobs : ∀ s r, P s → P (s.observe r))
    (heff : ∀ s u, P s → BusEffect s u → P u)
    (hreset : ∀ s, P s → P s.platformReset)
    (hcomp : ∀ s t, P s → completionStep s = .next t → P t)
    {s t : State} (h : step s = .next t) (hP : P s) : P t := by
  obtain ⟨s0, ⟨ts, rfl⟩, h⟩ := step_cases h
  have h0 := hturn s ts hP
  rcases h with ⟨-, h⟩ | rfl | rfl | h
  · exact hcomp _ _ h0 h
  · exact h0
  · exact hreset _ h0
  · rcases hostStep_effect h with rfl | ⟨u, r, l, hu, rfl | ⟨l', rfl⟩⟩
    · exact h0
    · exact hobs _ _ (heff _ _ (hscript _ _ h0) hu)
    · exact hscript _ _ (hobs _ _ (heff _ _ (hscript _ _ h0) hu))

/-- A run whose first step answers a next state goes on from it. -/
theorem run_succ_next {M : Host.Core} {k : Nat} {s s' : M.State} (h : M.step s = .next s') : M.run (k + 1) s = M.run k s' := by
  simp only [Host.Core.run, h]

/-- A run whose first step faults ends there. -/
theorem run_succ_fault {M : Host.Core} {k : Nat} {s : M.State} {f} (h : M.step s = .fault f) : M.run (k + 1) s = .fault f := by
  simp only [Host.Core.run, h]

end Sys2Proof.Machine
end

