-- ==== Sys2Proof/Laws/PerInstr.lean ====
section
/-! SUPPORT. A statement made per instruction, as syntax: its word has the fields the opcode map gives it and nothing else
(spec 30_encoding R90 to R93). -/

namespace Sys2Proof.Laws.EncodingFields

open Machine

/-- The command is well-formed, its word has RES 0 and the FUNC and ENC of its row, and a name of the opcode map
stands for it. -/
def Statement (i : Instr) : Prop :=
  wfInstr i = true ∧ wordRes (encode i) = 0#28 ∧ wordFunc (encode i) = (funcOf i).code ∧
  wordEnc (encode i) = (encOf i).code ∧ instrOf (funcOf i) (encOf i) = i ∧ decode (encode i) = .ok i ∧
  ∃ name, instrNamed name = some i

/-- COPY. -/
theorem copy : Statement .copy := ⟨by decide, by decide, by decide, by decide, by decide, by decide, "COPY", by decide⟩

/-- SHA1. -/
theorem sha1 : Statement .sha1 := ⟨by decide, by decide, by decide, by decide, by decide, by decide, "SHA1", by decide⟩

/-- HMAC. -/
theorem hmac : Statement .hmac := ⟨by decide, by decide, by decide, by decide, by decide, by decide, "HMAC", by decide⟩

/-- HEX. -/
theorem hex : Statement .hex := ⟨by decide, by decide, by decide, by decide, by decide, by decide, "HEX", by decide⟩

/-- SHA1.HEX. -/
theorem sha1Hex : Statement .sha1Hex := ⟨by decide, by decide, by decide, by decide, by decide, by decide, "SHA1.HEX", by decide⟩

/-- HMAC.HEX. -/
theorem hmacHex : Statement .hmacHex := ⟨by decide, by decide, by decide, by decide, by decide, by decide, "HMAC.HEX", by decide⟩

/-- B64. -/
theorem b64 : Statement .b64 := ⟨by decide, by decide, by decide, by decide, by decide, by decide, "B64", by decide⟩

/-- SHA1.B64. -/
theorem sha1B64 : Statement .sha1B64 := ⟨by decide, by decide, by decide, by decide, by decide, by decide, "SHA1.B64", by decide⟩

/-- HMAC.B64. -/
theorem hmacB64 : Statement .hmacB64 := ⟨by decide, by decide, by decide, by decide, by decide, by decide, "HMAC.B64", by decide⟩

/-- RADIX. -/
theorem radix : Statement .radix := ⟨by decide, by decide, by decide, by decide, by decide, by decide, "RADIX", by decide⟩

/-- SHA1.RADIX. -/
theorem sha1Radix : Statement .sha1Radix := ⟨by decide, by decide, by decide, by decide, by decide, by decide, "SHA1.RADIX", by decide⟩

/-- HMAC.RADIX. -/
theorem hmacRadix : Statement .hmacRadix := ⟨by decide, by decide, by decide, by decide, by decide, by decide, "HMAC.RADIX", by decide⟩

end Sys2Proof.Laws.EncodingFields
end

