-- ==== Sys2Proof/Tests/Slice0.lean ====
section
/-! SUPPORT. Small tests, each of one step or one function. Expected values are those of spec 95_test_vectors (its vector
numbers are cited), the worked examples of the rules, or hand calculation from them. The witness_ theorems show that the
hypotheses of the statements can be met. -/

namespace Sys2Proof.Tests

open Sys2Proof Sys2Proof.Machine

set_option Elab.async false

/-! ## Helpers -/

/-- The n bytes of a number, most significant first: a compact way to write a byte string. -/
def beList (n v : Nat) : List Byte := (List.range n).map fun i => BitVec.ofNat 8 (v / 256 ^ (n - 1 - i))

/-- A buffer whose first bytes are bs. -/
def mem (bs : List Byte) : Memory := bs.zipIdx.map fun p => (p.2, p.1)

theorem read_mem_from (bs : List Byte) (k i : Nat) :
    Memory.read ((bs.zipIdx k).map fun p => (p.2, p.1)) (k + i) = bs[i]? := by
  induction bs generalizing k i with
  | nil => rfl
  | cons b bs ih =>
    cases i with
    | zero => simp [Memory.read]
    | succ i =>
      have h := ih (k + 1) i
      rw [show k + 1 + i = k + (i + 1) by omega] at h
      simp [Memory.read, h]

/-- A buffer made so holds its bytes. -/
theorem holds_mem (bs : List Byte) : Holds (mem bs) bs := fun i _ => by
  have h := read_mem_from bs 0 i
  rwa [Nat.zero_add] at h

/-- n bytes 0. -/
def zeros (n : Nat) : List Byte := List.replicate n 0#8

/-- A field of the next state, where there is one. -/
def after {α : Type} (r : Result) (f : State → α) : Option α :=
  match r with
  | .next t => some (f t)
  | .fault _ | .refused _ => none

/-- Whether a result is a next state. -/
def isNext (r : Result) : Bool := (after r fun _ => ()).isSome

/-- The fault of a result, where there is one. -/
def faultOf (r : Result) : Option Fault :=
  match r with
  | .fault f => some f
  | .next _ | .refused _ => none

/-- OUT[0..OUT_LEN) where all of it is written. -/
def outOf (t : State) : Option (List Byte) := Memory.readRange t.out 0 t.outLen.toNat

/-- The response the host observed last. -/
def lastOf (t : State) : Option Response := t.log.head?

/-- Legal capacities, small, with MSG_CAP above OUT_CAP so that every command error can arise. -/
def tight : Config.Caps := { msgCap := 164, keyCap := 64, outCap := 160 }

/-- An idle core of those capacities. -/
def idle : State := { State.reset with caps := tight }

/-- Its lengths n, k, r set, with that many bytes 0 written where they fit, and the command word w in flight. -/
def ops (w : Word) (n k r : Nat) : State :=
  { idle with
    msg := mem (zeros (min n 164)), key := mem (zeros (min k 64)), alpha := mem (zeros (min r 256))
    msgLen := BitVec.ofNat 32 n, keyLen := BitVec.ofNat 32 k, alphaLen := BitVec.ofNat 32 r }.withCommand w

/-- The operands of V58: MSG "abc", KEY "Jefe", ALPHA "0123456789abcdef", CFG at its reset value. -/
def v58 (w : Word) : State :=
  { State.reset with
    msg := mem [0x61#8, 0x62#8, 0x63#8], key := mem [0x4A#8, 0x65#8, 0x66#8, 0x65#8]
    alpha := mem (beList 16 0x30313233343536373839616263646566)
    msgLen := 3#32, keyLen := 4#32, alphaLen := 16#32 }.withCommand w

/-- A core whose host has one line left. -/
def hosted (s : State) (l : HostLine) : State := { s with turns := [.host], script := [l] }

/-- MSG "abc", a command of word w in flight, the host's line next. -/
def busyHosted (w : Word) (l : HostLine) : State := hosted (v58 w) l

/-! ## Well-formedness: what each check refuses (00_scope R8, 30_encoding R99) -/

theorem test_caps_ref : Config.ref.legal = true := by decide +kernel
theorem test_caps_tight : tight.legal = true := by decide +kernel
theorem test_caps_msg_multiple : ({ Config.ref with msgCap := 66 } : Config.Caps).legal = false := by decide +kernel
theorem test_caps_msg_low : ({ Config.ref with msgCap := 60 } : Config.Caps).legal = false := by decide +kernel
theorem test_caps_msg_high : ({ Config.ref with msgCap := 2 ^ 30 + 4 } : Config.Caps).legal = false := by decide +kernel
theorem test_caps_key_multiple : ({ Config.ref with keyCap := 70 } : Config.Caps).legal = false := by decide +kernel
theorem test_caps_key_low : ({ Config.ref with keyCap := 60 } : Config.Caps).legal = false := by decide +kernel
theorem test_caps_key_high : ({ Config.ref with keyCap := 4100 } : Config.Caps).legal = false := by decide +kernel
theorem test_caps_out_multiple : ({ Config.ref with outCap := 162 } : Config.Caps).legal = false := by decide +kernel
theorem test_caps_out_low : ({ Config.ref with outCap := 156 } : Config.Caps).legal = false := by decide +kernel
theorem test_caps_out_high : ({ Config.ref with outCap := 2 ^ 30 + 4 } : Config.Caps).legal = false := by decide +kernel
theorem test_line_sb : wfLine (.txn (.write 0x40000000#32 1 255#32)) = true := by decide +kernel
theorem test_line_sb_data : wfLine (.txn (.write 0x40000000#32 1 256#32)) = false := by decide +kernel
theorem test_line_write_size : wfLine (.txn (.write 0x40000000#32 2 0#32)) = false := by decide +kernel
theorem test_line_read_size : wfLine (.txn (.read 0x40000000#32 8)) = false := by decide +kernel

/-! ## Decoding: words written out as RES, ENC, FUNC from 30_encoding R90 to R94 -/

theorem test_decode_copy : decode 0b00000000000000000000000000000000#32 = .ok .copy := by decide +kernel
theorem test_decode_sha1 : decode 0b00000000000000000000000000000001#32 = .ok .sha1 := by decide +kernel
theorem test_decode_hmac : decode 0b00000000000000000000000000000010#32 = .ok .hmac := by decide +kernel
theorem test_decode_hex : decode 0b00000000000000000000000000000100#32 = .ok .hex := by decide +kernel
theorem test_decode_sha1Hex : decode 0b00000000000000000000000000000101#32 = .ok .sha1Hex := by decide +kernel
theorem test_decode_hmacHex : decode 0b00000000000000000000000000000110#32 = .ok .hmacHex := by decide +kernel
theorem test_decode_b64 : decode 0b00000000000000000000000000001000#32 = .ok .b64 := by decide +kernel
theorem test_decode_sha1B64 : decode 0b00000000000000000000000000001001#32 = .ok .sha1B64 := by decide +kernel
theorem test_decode_hmacB64 : decode 0b00000000000000000000000000001010#32 = .ok .hmacB64 := by decide +kernel
theorem test_decode_radix : decode 0b00000000000000000000000000001100#32 = .ok .radix := by decide +kernel
theorem test_decode_sha1Radix : decode 0b00000000000000000000000000001101#32 = .ok .sha1Radix := by decide +kernel
theorem test_decode_hmacRadix : decode 0b00000000000000000000000000001110#32 = .ok .hmacRadix := by decide +kernel
theorem test_decode_func11_enc00 : decode 0b00000000000000000000000000000011#32 = .error .reservedFunc := by decide +kernel
theorem test_decode_func11_enc01 : decode 0b00000000000000000000000000000111#32 = .error .reservedFunc := by decide +kernel
theorem test_decode_func11_enc10 : decode 0b00000000000000000000000000001011#32 = .error .reservedFunc := by decide +kernel
theorem test_decode_func11_enc11 : decode 0b00000000000000000000000000001111#32 = .error .reservedFunc := by decide +kernel
theorem test_decode_res_low : decode 0b00000000000000000000000000010000#32 = .error .reservedBits := by decide +kernel
theorem test_decode_res_high : decode 0b10000000000000000000000000000001#32 = .error .reservedBits := by decide +kernel
theorem test_table_word : decodeTableWord 32 0xA = some .hmacB64 := by decide +kernel
theorem test_table_word_illegal : decodeTableWord 32 0x3 = none := by decide +kernel
theorem test_name_long : instrNamed "NONE.RAW" = some .copy := by decide +kernel
theorem test_name_none : instrNamed "NONE.XYZ" = none := by decide +kernel

/-! ## The datapath (V1 to V25, V33, V39) -/

theorem test_rotl1 : rotl 1 0x80000001#32 = 0x00000003#32 := by decide +kernel
theorem test_rotl5 : rotl 5 0x67452301#32 = 0xE8A4602C#32 := by decide +kernel
theorem test_rotl30 : rotl 30 0x80000001#32 = 0x60000000#32 := by decide +kernel
theorem test_round_functions :
    (choose 0xF0F0F0F0#32 0xFF00FF00#32 0x0F0F0F0F#32, parity 0xF0F0F0F0#32 0xFF00FF00#32 0x0F0F0F0F#32,
      majority 0xF0F0F0F0#32 0xFF00FF00#32 0x0F0F0F0F#32) = (0xFF0FFF0F#32, 0x00FF00FF#32, 0xFF00FF00#32) := by decide +kernel
theorem test_pack : packBE [1#8, 2#8, 3#8, 4#8, 5#8] = [0x01020304#32, 0x05000000#32] := by decide +kernel
theorem test_unpack : unpackBE [0xA9993E36#32] 3 = [0xA9#8, 0x99#8, 0x3E#8] := by decide +kernel
theorem test_pad_abc : padWords [0x61626300#32] 24 = 0x61626380#32 :: List.replicate 14 0#32 ++ [0x18#32] := by decide +kernel
theorem test_block_counts : [0, 440, 448, 504, 512, 952, 960].map blockCount = [1, 1, 2, 2, 2, 2, 3] := by decide +kernel
theorem test_block_count_truncated : blockCount (2 ^ 32) = 2 ^ 23 + 1 := by decide +kernel
theorem test_schedule_abc :
    (((schedule (padWords [0x61626300#32] 24)).drop 16).take 4, (schedule (padWords [0x61626300#32] 24))[79]?) =
      ([0xC2C4C700#32, 0#32, 0x30#32, 0x85898E01#32], some 0x822E0879#32) := by decide +kernel
theorem test_round_zero_abc : roundStep 0 0x61626380#32 (loadWork sha1Init) =
    { a := 0x0116FC33#32, b := 0x67452301#32, c := 0x7BF36AE2#32, d := 0x98BADCFE#32, e := 0x10325476#32 } := by decide +kernel
theorem test_sha1_empty : digestWords (sha1Digest []) =
    [0xDA39A3EE#32, 0x5E6B4B0D#32, 0x3255BFEF#32, 0x95601890#32, 0xAFD80709#32] := by decide +kernel
theorem test_sha1_two_blocks : digestBytes (sha1Digest (List.replicate 56 0x61#8)) =
    beList 20 0xc2db330f6083854c99d4b5bfb6e8f29f201be699 := by decide +kernel
theorem test_sha1_three_blocks : digestBytes (sha1Digest (List.replicate 120 0x61#8)) =
    beList 20 0xf34c1488385346a55709ba056ddd08280dd4c6d6 := by decide +kernel
theorem test_inner_hash_jefe :
    digestWords (innerHash (beList 4 0x4A656665) (beList 28 0x7768617420646f2079612077616e7420666f72206e6f7468696e673f)) =
      [0x98851244#32, 0x3AF91C57#32, 0xA38CE2DC#32, 0x8EC38796#32, 0x6C08DEC4#32] := by decide +kernel
theorem test_hmac_empty : digestBytes (hmacSha1 [] []) = beList 20 0xfbdb1d1b18aa6c08324b7d64b71fb76370690e1d := by decide +kernel
theorem test_hmac_key_64 : digestBytes (hmacSha1 (List.replicate 64 0x6B#8) [0x78#8]) =
    beList 20 0x2c31eadf68d9ba971ad29339d28ce725b03c11f6 := by decide +kernel
theorem test_hmac_key_65 : digestBytes (hmacSha1 (List.replicate 65 0x6B#8) [0x78#8]) =
    beList 20 0x7209aca75ec680871725fd309aa689746677dbd4 := by decide +kernel

/-! ## The encoders (V40 to V57) -/

theorem test_hex_lower : hexEnc [0x00#8, 0x0F#8, 0xA9#8, 0xFF#8] false = (beList 8 0x3030306661396666) := by decide +kernel
theorem test_hex_upper : hexEnc [0x00#8, 0x0F#8, 0xA9#8, 0xFF#8] true = (beList 8 0x3030304641394646) := by decide +kernel
theorem test_b64_one : b64Enc (beList 1 0x66) 0x3D#8 = (beList 4 0x5a673d3d) := by decide +kernel
theorem test_b64_two_dot : b64Enc [0xFB#8, 0xFF#8] 0x2E#8 = (beList 4 0x2b2f382e) := by decide +kernel
theorem test_b64_three : b64Enc (beList 6 0x666f6f626172) 0x3D#8 = (beList 8 0x5a6d3976596d4679) := by decide +kernel
theorem test_radix_ten : radixEnc [0x00#8, 0x01#8] (beList 10 0x30313233343536373839) = (beList 5 0x3030303031) := by decide +kernel
theorem test_radix_zero : radixEnc [0x00#8] (beList 2 0x3031) = (beList 8 0x3030303030303030) := by decide +kernel
theorem test_radix_three : radixEnc [0x07#8] (beList 3 0x58595a) = (beList 6 0x585858585a59) := by decide +kernel
theorem test_radix_36 : radixEnc [0xFF#8, 0xFF#8] (beList 36 0x303132333435363738396162636465666768696a6b6c6d6e6f707172737475767778797a) = (beList 4 0x31656b66) := by decide +kernel
theorem test_full_len_one : ((List.range 15).map fun i => fullLen 1 (i + 2)) =
    [8, 6, 4, 4, 4, 3, 3, 3, 3, 3, 3, 3, 3, 3, 2] := by decide +kernel
theorem test_full_len_twenty : ([2, 3, 8, 10, 16, 36, 58, 62, 64, 85, 256].map fun r => fullLen 20 r) =
    [160, 101, 54, 49, 40, 31, 28, 27, 27, 25, 20] := by decide +kernel

/-! ## The twelve commands on the operands of V58: OUT, DIGEST0 and STATUS -/

theorem test_copy : after (step (v58 0x0#32)) (fun t => (outOf t, t.digest.h0, t.status)) =
    some (some (beList 3 0x616263), 0#32, 2#32) := by decide +kernel
theorem test_sha1 : after (step (v58 0x1#32)) (fun t => (outOf t, t.digest.h0, t.status)) =
    some (some (beList 20 0xa9993e364706816aba3e25717850c26c9cd0d89d), 0xA9993E36#32, 2#32) := by decide +kernel
theorem test_hmac : after (step (v58 0x2#32)) (fun t => (outOf t, t.digest.h0, t.status)) =
    some (some (beList 20 0x1f81e4c0f425d93623df95a0eb5672555612abbb), 0x1F81E4C0#32, 2#32) := by decide +kernel
theorem test_hex : after (step (v58 0x4#32)) (fun t => (outOf t, t.digest.h0, t.status)) =
    some (some (beList 6 0x363136323633), 0#32, 2#32) := by decide +kernel
theorem test_sha1Hex : after (step (v58 0x5#32)) (fun t => (outOf t, t.digest.h0, t.status)) =
    some (some (beList 40 0x61393939336533363437303638313661626133653235373137383530633236633963643064383964), 0xA9993E36#32, 2#32) := by decide +kernel
theorem test_hmacHex : after (step (v58 0x6#32)) (fun t => (outOf t, t.digest.h0, t.status)) =
    some (some (beList 40 0x31663831653463306634323564393336323364663935613065623536373235353536313261626262), 0x1F81E4C0#32, 2#32) := by decide +kernel
theorem test_b64 : after (step (v58 0x8#32)) (fun t => (outOf t, t.digest.h0, t.status)) =
    some (some (beList 4 0x59574a6a), 0#32, 2#32) := by decide +kernel
theorem test_sha1B64 : after (step (v58 0x9#32)) (fun t => (outOf t, t.digest.h0, t.status)) =
    some (some (beList 28 0x715a6b2b4e6b6347675771365069567865464443624a7a51324a303d), 0xA9993E36#32, 2#32) := by decide +kernel
theorem test_hmacB64 : after (step (v58 0xA#32)) (fun t => (outOf t, t.digest.h0, t.status)) =
    some (some (beList 28 0x4834486b7750516c3254596a3335576736315a79565659537137733d), 0x1F81E4C0#32, 2#32) := by decide +kernel
theorem test_radix : after (step (v58 0xC#32)) (fun t => (outOf t, t.digest.h0, t.status)) =
    some (some (beList 6 0x363136323633), 0#32, 2#32) := by decide +kernel
theorem test_sha1Radix : after (step (v58 0xD#32)) (fun t => (outOf t, t.digest.h0, t.status)) =
    some (some (beList 40 0x61393939336533363437303638313661626133653235373137383530633236633963643064383964), 0xA9993E36#32, 2#32) := by decide +kernel
theorem test_hmacRadix : after (step (v58 0xE#32)) (fun t => (outOf t, t.digest.h0, t.status)) =
    some (some (beList 40 0x31663831653463306634323564393336323364663935613065623536373235353536313261626262), 0x1F81E4C0#32, 2#32) := by decide +kernel

/-! ## Errors (V59) and their effect (60_exceptions R248) -/

theorem test_illegal_3 : after (step (v58 0x3#32)) (·.status) = some 0x106#32 := by decide +kernel
theorem test_illegal_res : after (step (ops 0x13#32 165 0 0)) (·.status) = some 0x106#32 := by decide +kernel
theorem test_msg_range : after (step (ops 0x1#32 165 0 0)) (·.status) = some 0x206#32 := by decide +kernel
theorem test_key_range : after (step (ops 0x2#32 0 65 0)) (·.status) = some 0x306#32 := by decide +kernel
theorem test_key_len_ignored : after (step (ops 0x1#32 0 65 0)) (·.status) = some 2#32 := by decide +kernel
theorem test_alpha_range_low : after (step (ops 0xC#32 0 0 1)) (·.status) = some 0x406#32 := by decide +kernel
theorem test_alpha_range_high : after (step (ops 0xE#32 0 0 257)) (·.status) = some 0x406#32 := by decide +kernel
theorem test_alpha_256 : after (step (ops 0xD#32 0 0 256)) (·.status) = some 2#32 := by decide +kernel
theorem test_out_range : after (step (ops 0x4#32 81 0 0)) (·.status) = some 0x506#32 := by decide +kernel
theorem test_priority : after (step (ops 0xE#32 165 65 1)) (·.status) = some 0x206#32 := by decide +kernel
theorem test_error_keeps_results :
    after (step { ops 0x1#32 165 0 0 with out := mem [7#8], outLen := 1#32 }) (fun t => (outOf t, t.cmd, t.latch)) =
      some (some [7#8], 1#32, none) := by decide +kernel
theorem test_busyerr_kept : after (step { v58 0x0#32 with status := 0x9#32 }) (·.status) = some 0xA#32 := by decide +kernel
theorem test_unwritten_operand : faultOf (step ({ idle with msgLen := 1#32 }.withCommand 0x0#32)) = some .unwrittenOperand := by decide +kernel
theorem test_first_after_reset_hmac : after (step (State.reset.withFetchWord 32 2)) (·.status) = some 2#32 := by decide +kernel
theorem test_first_after_reset_radix : after (step (State.reset.withFetchWord 32 0xC)) (·.status) = some 0x406#32 := by decide +kernel

/-! ## Bus transactions (V60; 20_memory R62 to R72) -/

theorem test_lb_status : busRead idle 0x14#32 1 = some (.read .buserr 0#32) := by decide +kernel
theorem test_sw_out : (busWrite idle 0x80000000#32 4 0#32).2 = .buserr := by decide +kernel
theorem test_lw_misaligned : busRead idle 0x1002#32 4 = some (.read .buserr 0#32) := by decide +kernel
theorem test_lw_unmapped : busRead idle 0x3000#32 4 = some (.read .buserr 0#32) := by decide +kernel
theorem test_lw_above_key_cap : busRead State.reset 0x2100#32 4 = some (.read .buserr 0#32) := by decide +kernel
theorem test_size_two : busRead idle 0x40000000#32 2 = some (.read .buserr 0#32) := by decide +kernel
theorem test_key_reads_zero : busRead (v58 0x0#32) 0x2000#32 4 = some (.read .okay 0#32) := by decide +kernel
theorem test_reserved_reads_zero : busRead idle 0x2C#32 4 = some (.read .okay 0#32) := by decide +kernel
theorem test_sw_id_ignored : busRead (busWrite idle 0x0#32 4 5#32).1 0x0#32 4 = some (.read .okay 0x53484131#32) := by decide +kernel
theorem test_lanes_read : busRead (busWrite idle 0x40000000#32 4 0x04030201#32).1 0x40000002#32 1 = some (.read .okay 3#32) := by decide +kernel
theorem test_lanes_merge :
    busRead (busWrite (busWrite idle 0x40000000#32 4 0x04030201#32).1 0x40000001#32 1 0xAB#32).1 0x40000000#32 4 =
      some (.read .okay 0x0403AB01#32) := by decide +kernel
theorem test_read_unwritten_out : faultOf (step (hosted State.reset (lw 0x80000000))) = some .unwrittenRead := by decide +kernel
theorem test_cmd_write_while_busy :
    after (step (busyHosted 0x1#32 (cmdLine .hmac))) (fun t => (t.cmd, t.status, lastOf t)) =
      some (1#32, 0x9#32, some (.write .okay)) := by decide +kernel
theorem test_read_while_busy : after (step (busyHosted 0x1#32 (lw 0x01C))) lastOf = some (some (.read .okay 0#32)) := by decide +kernel
theorem test_clear_busyerr : after (step (hosted { idle with status := 0x8#32 } clearBusyErr)) (·.status) = some 0#32 := by decide +kernel
theorem test_cfg_reserved : after (step (hosted idle (sw 0x018 0xFFFFFFFF#32))) (·.cfg) = some 0xFF01#32 := by decide +kernel
theorem test_cmd_line : after (step (hosted idle (cmdLine .hmacB64))) (fun t => (t.cmd, t.status)) = some (0xA#32, 1#32) := by decide +kernel
theorem test_bytes_lines : bytesLines 0x40000000 [0x61#8, 0x62#8, 0x63#8, 0x64#8, 0x65#8] =
    [sw 0x40000000 0x64636261#32, sb 0x40000004 0x65#8] := by decide +kernel
theorem test_register_symbols : [RegName.cmd, .status, .cfg, .digest4, .reserved].map regOffset =
    [some 0x10, some 0x14, some 0x18, some 0x40, none] := by decide +kernel
theorem test_reset_event : after (step { v58 0x1#32 with turns := [.reset] }) (fun t => (t.busy, t.latch, t.msg, t.cfg)) =
    some (false, none, [], 0x3D00#32) := by decide +kernel

/-! ## Witnesses: the hypotheses of each statement met together -/

theorem witness_step_runs_in_turn :
    (v58 0x5#32).busy = true ∧ decode (v58 0x5#32).operands.cmd = .ok .sha1Hex ∧ (v58 0x5#32).turns = [.engine] := by decide +kernel
theorem witness_step_runs_by_default :
    (State.reset.startCommand 0xE#32).busy = true ∧
      decode (State.reset.startCommand 0xE#32).operands.cmd = .ok .hmacRadix ∧ (State.reset.startCommand 0xE#32).turns = [] := by decide +kernel
theorem witness_illegal_func :
    (v58 0xF#32).turns = [.engine] ∧ (v58 0xF#32).busy = true ∧ (v58 0xF#32).operands.cmd.extractLsb' 0 2 = 3#2 := by decide +kernel
theorem witness_illegal_res :
    (v58 0x10#32).turns = [.engine] ∧ (v58 0x10#32).busy = true ∧ (v58 0x10#32).operands.cmd.extractLsb' 4 28 ≠ 0#28 := by decide +kernel
theorem witness_first_check_msg :
    decode (ops 0xE#32 165 65 1).operands.cmd = .ok .hmacRadix ∧ (ops 0xE#32 165 65 1).caps.msgCap < (ops 0xE#32 165 65 1).msgCount := by decide +kernel
theorem witness_first_check_key :
    decode (ops 0xE#32 164 65 1).operands.cmd = .ok .hmacRadix ∧ (ops 0xE#32 164 65 1).msgCount ≤ (ops 0xE#32 164 65 1).caps.msgCap ∧
      (ops 0xE#32 164 65 1).caps.keyCap < (ops 0xE#32 164 65 1).keyCount := by decide +kernel
theorem witness_first_check_alpha :
    decode (ops 0xE#32 164 64 257).operands.cmd = .ok .hmacRadix ∧ (ops 0xE#32 164 64 257).keyCount ≤ (ops 0xE#32 164 64 257).caps.keyCap ∧
      256 < (ops 0xE#32 164 64 257).radix := by decide +kernel
theorem witness_first_check_out :
    decode (ops 0xC#32 21 0 2).operands.cmd = .ok .radix ∧ ¬((ops 0xC#32 21 0 2).radix < 2 ∨ 256 < (ops 0xC#32 21 0 2).radix) ∧
      (ops 0xC#32 21 0 2).caps.outCap < encLen .radix 21 2 := by decide +kernel
theorem witness_first_check_none :
    (ops 0xE#32 164 64 256).caps.legal = true ∧ decode (ops 0xE#32 164 64 256).operands.cmd = .ok .hmacRadix ∧
      (ops 0xE#32 164 64 256).rangeError .hmac .radix = none := by decide +kernel
theorem witness_completion_fails : isNext (exec .hmac (ops 0x2#32 0 65 0)) = true := by decide +kernel
theorem witness_completion_commits : isNext (exec .hex (v58 0x4#32)) = true := by decide +kernel
theorem witness_unwritten_msg :
    faultOf (exec .copy { idle with msg := mem (zeros 2), msgLen := 3#32 }) = some .unwrittenOperand := by decide +kernel
theorem witness_unwritten_key :
    faultOf (exec .hmac { idle with key := mem (zeros 63), keyLen := 64#32 }) = some .unwrittenOperand := by decide +kernel
theorem witness_unwritten_alpha :
    faultOf (exec .radix { idle with alpha := mem (zeros 255), alphaLen := 256#32 }) = some .unwrittenOperand := by decide +kernel

theorem witness_copy :
    (ops 0x0#32 160 0 0).caps.legal = true ∧
    (zeros 160).length = (ops 0x0#32 160 0 0).msgCount ∧
    Holds (ops 0x0#32 160 0 0).msg (zeros 160) ∧
    (zeros 160).length ≤ (ops 0x0#32 160 0 0).caps.msgCap ∧
    (zeros 160).length ≤ (ops 0x0#32 160 0 0).caps.outCap :=
  ⟨by decide +kernel, by decide +kernel, holds_mem _, by decide +kernel, by decide +kernel⟩
theorem witness_sha1 :
    (ops 0x1#32 164 0 0).caps.legal = true ∧
    (zeros 164).length = (ops 0x1#32 164 0 0).msgCount ∧
    Holds (ops 0x1#32 164 0 0).msg (zeros 164) ∧
    (zeros 164).length ≤ (ops 0x1#32 164 0 0).caps.msgCap :=
  ⟨by decide +kernel, by decide +kernel, holds_mem _, by decide +kernel⟩
theorem witness_hmac :
    (ops 0x2#32 164 64 0).caps.legal = true ∧
    (zeros 164).length = (ops 0x2#32 164 64 0).msgCount ∧
    Holds (ops 0x2#32 164 64 0).msg (zeros 164) ∧
    (zeros 164).length ≤ (ops 0x2#32 164 64 0).caps.msgCap ∧
    (zeros 64).length = (ops 0x2#32 164 64 0).keyCount ∧
    Holds (ops 0x2#32 164 64 0).key (zeros 64) ∧
    (zeros 64).length ≤ (ops 0x2#32 164 64 0).caps.keyCap :=
  ⟨by decide +kernel, by decide +kernel, holds_mem _, by decide +kernel, by decide +kernel, holds_mem _, by decide +kernel⟩
theorem witness_hex :
    (ops 0x4#32 80 0 0).caps.legal = true ∧
    (zeros 80).length = (ops 0x4#32 80 0 0).msgCount ∧
    Holds (ops 0x4#32 80 0 0).msg (zeros 80) ∧
    (zeros 80).length ≤ (ops 0x4#32 80 0 0).caps.msgCap ∧
    2 * (zeros 80).length ≤ (ops 0x4#32 80 0 0).caps.outCap :=
  ⟨by decide +kernel, by decide +kernel, holds_mem _, by decide +kernel, by decide +kernel⟩
theorem witness_sha1Hex :
    (ops 0x5#32 164 0 0).caps.legal = true ∧
    (zeros 164).length = (ops 0x5#32 164 0 0).msgCount ∧
    Holds (ops 0x5#32 164 0 0).msg (zeros 164) ∧
    (zeros 164).length ≤ (ops 0x5#32 164 0 0).caps.msgCap :=
  ⟨by decide +kernel, by decide +kernel, holds_mem _, by decide +kernel⟩
theorem witness_hmacHex :
    (ops 0x6#32 164 64 0).caps.legal = true ∧
    (zeros 164).length = (ops 0x6#32 164 64 0).msgCount ∧
    Holds (ops 0x6#32 164 64 0).msg (zeros 164) ∧
    (zeros 164).length ≤ (ops 0x6#32 164 64 0).caps.msgCap ∧
    (zeros 64).length = (ops 0x6#32 164 64 0).keyCount ∧
    Holds (ops 0x6#32 164 64 0).key (zeros 64) ∧
    (zeros 64).length ≤ (ops 0x6#32 164 64 0).caps.keyCap :=
  ⟨by decide +kernel, by decide +kernel, holds_mem _, by decide +kernel, by decide +kernel, holds_mem _, by decide +kernel⟩
theorem witness_b64 :
    (ops 0x8#32 120 0 0).caps.legal = true ∧
    (zeros 120).length = (ops 0x8#32 120 0 0).msgCount ∧
    Holds (ops 0x8#32 120 0 0).msg (zeros 120) ∧
    (zeros 120).length ≤ (ops 0x8#32 120 0 0).caps.msgCap ∧
    4 * (((zeros 120).length + 2) / 3) ≤ (ops 0x8#32 120 0 0).caps.outCap :=
  ⟨by decide +kernel, by decide +kernel, holds_mem _, by decide +kernel, by decide +kernel⟩
theorem witness_sha1B64 :
    (ops 0x9#32 164 0 0).caps.legal = true ∧
    (zeros 164).length = (ops 0x9#32 164 0 0).msgCount ∧
    Holds (ops 0x9#32 164 0 0).msg (zeros 164) ∧
    (zeros 164).length ≤ (ops 0x9#32 164 0 0).caps.msgCap :=
  ⟨by decide +kernel, by decide +kernel, holds_mem _, by decide +kernel⟩
theorem witness_hmacB64 :
    (ops 0xA#32 164 64 0).caps.legal = true ∧
    (zeros 164).length = (ops 0xA#32 164 64 0).msgCount ∧
    Holds (ops 0xA#32 164 64 0).msg (zeros 164) ∧
    (zeros 164).length ≤ (ops 0xA#32 164 64 0).caps.msgCap ∧
    (zeros 64).length = (ops 0xA#32 164 64 0).keyCount ∧
    Holds (ops 0xA#32 164 64 0).key (zeros 64) ∧
    (zeros 64).length ≤ (ops 0xA#32 164 64 0).caps.keyCap :=
  ⟨by decide +kernel, by decide +kernel, holds_mem _, by decide +kernel, by decide +kernel, holds_mem _, by decide +kernel⟩
theorem witness_radix_two :
    (ops 0xC#32 20 0 2).caps.legal = true ∧
    (zeros 20).length = (ops 0xC#32 20 0 2).msgCount ∧
    Holds (ops 0xC#32 20 0 2).msg (zeros 20) ∧
    (zeros 20).length ≤ (ops 0xC#32 20 0 2).caps.msgCap ∧
    (zeros 2).length = (ops 0xC#32 20 0 2).radix ∧
    Holds (ops 0xC#32 20 0 2).alpha (zeros 2) ∧
    2 ≤ (zeros 2).length ∧
    (zeros 2).length ≤ 256 ∧
    fullLen (zeros 20).length (zeros 2).length ≤ (ops 0xC#32 20 0 2).caps.outCap :=
  ⟨by decide +kernel, by decide +kernel, holds_mem _, by decide +kernel, by decide +kernel, holds_mem _, by decide +kernel, by decide +kernel, by decide +kernel⟩
theorem witness_radix_256 :
    (ops 0xC#32 160 0 256).caps.legal = true ∧
    (zeros 160).length = (ops 0xC#32 160 0 256).msgCount ∧
    Holds (ops 0xC#32 160 0 256).msg (zeros 160) ∧
    (zeros 160).length ≤ (ops 0xC#32 160 0 256).caps.msgCap ∧
    (zeros 256).length = (ops 0xC#32 160 0 256).radix ∧
    Holds (ops 0xC#32 160 0 256).alpha (zeros 256) ∧
    2 ≤ (zeros 256).length ∧
    (zeros 256).length ≤ 256 ∧
    fullLen (zeros 160).length (zeros 256).length ≤ (ops 0xC#32 160 0 256).caps.outCap :=
  ⟨by decide +kernel, by decide +kernel, holds_mem _, by decide +kernel, by decide +kernel, holds_mem _, by decide +kernel, by decide +kernel, by decide +kernel⟩
theorem witness_sha1Radix_two :
    (ops 0xD#32 164 0 2).caps.legal = true ∧
    (zeros 164).length = (ops 0xD#32 164 0 2).msgCount ∧
    Holds (ops 0xD#32 164 0 2).msg (zeros 164) ∧
    (zeros 164).length ≤ (ops 0xD#32 164 0 2).caps.msgCap ∧
    (zeros 2).length = (ops 0xD#32 164 0 2).radix ∧
    Holds (ops 0xD#32 164 0 2).alpha (zeros 2) ∧
    2 ≤ (zeros 2).length ∧
    (zeros 2).length ≤ 256 :=
  ⟨by decide +kernel, by decide +kernel, holds_mem _, by decide +kernel, by decide +kernel, holds_mem _, by decide +kernel, by decide +kernel⟩
theorem witness_sha1Radix_256 :
    (ops 0xD#32 164 0 256).caps.legal = true ∧
    (zeros 164).length = (ops 0xD#32 164 0 256).msgCount ∧
    Holds (ops 0xD#32 164 0 256).msg (zeros 164) ∧
    (zeros 164).length ≤ (ops 0xD#32 164 0 256).caps.msgCap ∧
    (zeros 256).length = (ops 0xD#32 164 0 256).radix ∧
    Holds (ops 0xD#32 164 0 256).alpha (zeros 256) ∧
    2 ≤ (zeros 256).length ∧
    (zeros 256).length ≤ 256 :=
  ⟨by decide +kernel, by decide +kernel, holds_mem _, by decide +kernel, by decide +kernel, holds_mem _, by decide +kernel, by decide +kernel⟩
theorem witness_hmacRadix :
    (ops 0xE#32 164 64 256).caps.legal = true ∧
    (zeros 164).length = (ops 0xE#32 164 64 256).msgCount ∧
    Holds (ops 0xE#32 164 64 256).msg (zeros 164) ∧
    (zeros 164).length ≤ (ops 0xE#32 164 64 256).caps.msgCap ∧
    (zeros 64).length = (ops 0xE#32 164 64 256).keyCount ∧
    Holds (ops 0xE#32 164 64 256).key (zeros 64) ∧
    (zeros 64).length ≤ (ops 0xE#32 164 64 256).caps.keyCap ∧
    (zeros 256).length = (ops 0xE#32 164 64 256).radix ∧
    Holds (ops 0xE#32 164 64 256).alpha (zeros 256) ∧
    2 ≤ (zeros 256).length ∧
    (zeros 256).length ≤ 256 :=
  ⟨by decide +kernel, by decide +kernel, holds_mem _, by decide +kernel, by decide +kernel, holds_mem _, by decide +kernel, by decide +kernel, holds_mem _, by decide +kernel, by decide +kernel⟩

theorem witness_copy_out_range : after (exec .copy (ops 0x0#32 161 0 0)) (·.status) = some 0x506#32 := by decide +kernel
theorem witness_hex_out_range : after (exec .hex (ops 0x4#32 81 0 0)) (·.status) = some 0x506#32 := by decide +kernel
theorem witness_b64_out_range : after (exec .b64 (ops 0x8#32 121 0 0)) (·.status) = some 0x506#32 := by decide +kernel
theorem witness_radix_out_range : after (exec .radix (ops 0xC#32 161 0 256)) (·.status) = some 0x506#32 := by decide +kernel
/-- The commands in the order of the opcode map. -/
def commands : List Instr :=
  [.copy, .sha1, .hmac, .hex, .sha1Hex, .hmacHex, .b64, .sha1B64, .hmacB64, .radix, .sha1Radix, .hmacRadix]
theorem witness_msg_range : commands.map (fun i => after (exec i (ops (encode i) 165 0 0)) (·.status)) =
    List.replicate 12 (some 0x206#32) := by decide +kernel
theorem witness_key_range : ([.hmac, .hmacHex, .hmacB64, .hmacRadix].map fun i => after (exec i (ops (encode i) 164 65 0)) (·.status)) =
    List.replicate 4 (some 0x306#32) := by decide +kernel
theorem witness_alpha_range_one : ([.radix, .sha1Radix, .hmacRadix].map fun i => after (exec i (ops (encode i) 164 64 1)) (·.status)) =
    List.replicate 3 (some 0x406#32) := by decide +kernel
theorem witness_alpha_range_257 : ([.radix, .sha1Radix, .hmacRadix].map fun i => after (exec i (ops (encode i) 164 64 257)) (·.status)) =
    List.replicate 3 (some 0x406#32) := by decide +kernel

theorem witness_cmd_write : { idle with status := 0xE#32 }.busy = false := by decide +kernel
theorem witness_idle_reads :
    idle.busy = false ∧ (0xFFC#32).toNat % 4 = 0 ∧ 0x044 ≤ (0xFFC#32).toNat ∧ (0x044#32).toNat % 4 = 0 ∧ 0x044 ≤ (0x044#32).toNat ∧
      (0x02C#32).toNat % 4 = 0 := by decide +kernel
theorem witness_constant_write : idle.busy = false ∧ (0xC#32).toNat % 4 = 0 ∧ (0xC#32).toNat ≤ 0xC := by decide +kernel
theorem witness_constant_step : isNext (step (v58 0x0#32)) = true := by decide +kernel
theorem witness_idle_writes :
    idle.busy = false ∧ ((0xC#32).toNat % 4 = 0 ∧ (0xC#32).toNat ≤ 0xC) ∧ ((0x28#32).toNat % 4 = 0 ∧ 0x28 ≤ (0x28#32).toNat) ∧
      ((0xFFC#32).toNat % 4 = 0 ∧ (0xFFC#32).toNat < 0x1000) := by decide +kernel
theorem witness_bus_error_unmapped : tight.legal = true ∧ BadAccess idle 0x1100#32 4 ∧ BadAccess idle 0x2040#32 1 := by
  unfold BadAccess Mapped; decide +kernel
theorem witness_bus_error_size : BadAccess idle 0x1000#32 2 ∧ BadAccess idle 0x1002#32 4 ∧ BadAccess idle 0xFFC#32 1 := by
  unfold BadAccess Mapped; decide +kernel
theorem witness_bus_error_out : ¬BadAccess idle 0x8000009C#32 4 ∧ (0x8000009C#32).toNat < 0x80000000 + idle.caps.outCap := by
  unfold BadAccess Mapped; decide +kernel
theorem witness_lockout :
    (v58 0x1#32).caps.legal = true ∧ (v58 0x1#32).busy = true ∧ ¬BadAccess (v58 0x1#32) 0x14#32 4 := by
  unfold BadAccess Mapped; decide +kernel
theorem witness_lockout_reg : ¬BadAccess (v58 0x1#32) 0x10#32 4 := by unfold BadAccess Mapped; decide +kernel
theorem witness_lockout_buf : ¬BadAccess (v58 0x1#32) 0x20FF#32 1 := by unfold BadAccess Mapped; decide +kernel
theorem witness_lockout_out : ¬BadAccess (v58 0x1#32) 0x807FFFFC#32 4 := by unfold BadAccess Mapped; decide +kernel
theorem witness_buffer_write :
    idle.caps.legal = true ∧ idle.busy = false ∧ Buf.key ≠ Buf.out ∧ 63 < idle.bufCap .key ∧ 60 % 4 = 0 ∧ 60 < idle.bufCap .key ∧
      160 < idle.bufCap .msg ∧ 252 < idle.bufCap .alpha := by decide +kernel
/-- OUT full of bytes 7. -/
def outFull : State := { idle with out := mem (List.replicate 160 7#8) }
theorem witness_buffer_read :
    outFull.caps.legal = true ∧ outFull.busy = false ∧ Buf.out ≠ Buf.key ∧ 159 < outFull.bufCap .out ∧
      Memory.read (outFull.buf .out) 159 = some 7#8 ∧ 156 % 4 = 0 ∧ Memory.read (outFull.buf .out) 156 = some 7#8 ∧
      Memory.read (outFull.buf .out) 157 = some 7#8 ∧ Memory.read (outFull.buf .out) 158 = some 7#8 := by decide +kernel
theorem witness_key_read : idle.caps.legal = true ∧ 60 % 4 = 0 ∧ 60 < idle.caps.keyCap ∧ 63 < idle.caps.keyCap := by decide +kernel
theorem witness_unwritten_read :
    idle.caps.legal = true ∧ idle.busy = false ∧ ¬BadAccess idle 0x80000000#32 4 ∧
      faultOf (perform idle (.read 0x80000000#32 4)) = some .unwrittenRead := by
  unfold BadAccess Mapped; decide +kernel
theorem witness_mixed_byte :
    ({ idle with msg := mem (zeros 164) } : State).caps.legal = true ∧ ({ idle with msg := mem (zeros 164) } : State).busy = false ∧
      163 < idle.bufCap .msg ∧
      after (perform { idle with msg := mem (zeros 164) } (.write 0x400000A3#32 1 0xAB#32)) (fun t => busRead t 0x400000A0#32 4) =
        some (some (.read .okay 0xAB000000#32)) := by decide +kernel
theorem witness_mixed_word :
    idle.caps.legal = true ∧ idle.busy = false ∧ 252 < idle.bufCap .alpha ∧ 252 % 4 = 0 ∧
      isNext (perform idle (.write 0x10FC#32 4 0x04030201#32)) = true := by decide +kernel
theorem witness_read_pure : isNext (perform idle (.read 0x000#32 4)) = true := by decide +kernel
theorem witness_host_busy : (v58 0x1#32).busy = true ∧ isNext (perform (v58 0x1#32) (.write 0x010#32 4 2#32)) = true := by decide +kernel
theorem witness_busy_set :
    (hosted idle (cmdLine .sha1)).busy = false ∧ after (step (hosted idle (cmdLine .sha1))) (·.busy) = some true := by decide +kernel
theorem witness_busy_cleared : (v58 0x0#32).busy = true ∧ after (step (v58 0x0#32)) (·.busy) = some false := by decide +kernel
theorem witness_busy_reset :
    { v58 0x0#32 with turns := [.reset] }.busy = true ∧ after (step { v58 0x0#32 with turns := [.reset] }) (·.busy) = some false := by decide +kernel
theorem witness_same_operands :
    SameOperands .sha1 (v58 0x1#32) { v58 0x1#32 with key := [], alpha := [], outLen := 9#32, status := 0x9#32 } :=
  ⟨rfl, rfl, fun _ _ => rfl, nofun, nofun⟩
theorem witness_same_operands_fault : faultOf (exec .copy { idle with msgLen := 1#32 }) = some .unwrittenOperand := by decide +kernel
theorem witness_busy_transaction :
    (v58 0x8#32).busy = true ∧ isNext (perform (v58 0x8#32) (.write 0x40000000#32 4 0#32)) = true ∧
      isNext (completionStep (v58 0x8#32)) = true := by decide +kernel
theorem witness_key_forgotten :
    (v58 0x5#32).withoutKey = { v58 0x5#32 with key := [] }.withoutKey ∧ (v58 0x5#32).key ≠ [] ∧
      (v58 0x5#32).runsHmac = false ∧ isNext (step (v58 0x5#32)) = true := by decide +kernel
theorem witness_key_forgotten_host_turn :
    (busyHosted 0x6#32 (lw 0x2000)).withoutKey = { busyHosted 0x6#32 (lw 0x2000) with key := [] }.withoutKey ∧
      (busyHosted 0x6#32 (lw 0x2000)).runsHmac = true ∧ (busyHosted 0x6#32 (lw 0x2000)).turns = [.host] ∧
      isNext (step (busyHosted 0x6#32 (lw 0x2000))) = true := by decide +kernel
theorem witness_key_forgotten_reset :
    { v58 0xA#32 with turns := [.reset] }.withoutKey = { v58 0xA#32 with turns := [.reset], key := [] }.withoutKey ∧
      { v58 0xA#32 with turns := [.reset] }.runsHmac = true ∧ isNext (step { v58 0xA#32 with turns := [.reset] }) = true := by
  decide +kernel
theorem witness_key_forgotten_fault :
    (hosted State.reset (lw 0x80000000)).withoutKey = { hosted State.reset (lw 0x80000000) with key := mem [1#8] }.withoutKey ∧
      (hosted State.reset (lw 0x80000000)).runsHmac = false ∧
      faultOf (step (hosted State.reset (lw 0x80000000))) = some .unwrittenRead := by decide +kernel
theorem witness_status_ok :
    StatusOk (v58 0x0#32).status ∧ (v58 0x0#32).cfg &&& ~~~cfgFields = 0#32 ∧ isNext (step (v58 0x0#32)) = true := by
  unfold StatusOk; decide +kernel
theorem witness_status_ok_error : StatusOk 0x50E#32 := by unfold StatusOk; decide +kernel
theorem witness_latch_ok : LatchOk (v58 0x4#32) ∧ isNext (step (v58 0x4#32)) = true :=
  ⟨⟨by decide +kernel, fun l h => by cases h; rfl⟩, by decide +kernel⟩
/-- OUT and OUT_LEN as COPY leaves them, and the other buffers as V58 has them. -/
def committed : State := { v58 0x8#32 with out := mem [0x61#8, 0x62#8, 0x63#8], outLen := 3#32 }
theorem witness_buffers_ok : BuffersOk committed ∧ isNext (step committed) = true := by
  refine ⟨⟨by decide +kernel, fun b => ?_, by decide +kernel, by decide +kernel⟩, by decide +kernel⟩
  cases b <;> (unfold BufOk; decide +kernel)
theorem witness_platform_reset : { v58 0x1#32 with turns := [.reset, .host] }.turns = .reset :: [.host] := by decide +kernel
theorem witness_poll_ends :
    (hosted idle waitIdle).script = [.poll 0x014#32 0x1#32 0x0#32] ∧
      busRead (hosted idle waitIdle) 0x014#32 4 = some (.read .okay 0#32) ∧ 0#32 &&& 0x1#32 = 0x0#32 := by decide +kernel
theorem witness_poll_repeats :
    (busyHosted 0x1#32 waitIdle).script = [.poll 0x014#32 0x1#32 0x0#32] ∧
      busRead (busyHosted 0x1#32 waitIdle) 0x014#32 4 = some (.read .okay 1#32) ∧ 1#32 &&& 0x1#32 ≠ 0x0#32 := by decide +kernel
theorem witness_poll_buserr : busRead (hosted idle (.poll 0x3000#32 0#32 0#32)) 0x3000#32 4 = some (.read .buserr 0#32) := by decide +kernel
theorem witness_host_turns :
    { v58 0x4#32 with turns := [.host, .host, .engine], script := [waitIdle] }.busy = true ∧
      { v58 0x4#32 with turns := [.host, .host, .engine], script := [waitIdle] }.turns = List.replicate 2 .host ++ [.engine] ∧
      isNext (Host.Core.run Sys2Proof.core 2 { v58 0x4#32 with turns := [.host, .host, .engine], script := [waitIdle] }) = true := by decide +kernel
theorem witness_host_turn :
    (busyHosted 0x1#32 (sw 0x010 2#32)).turns = [.host] ∧
      (busyHosted 0x1#32 (sw 0x010 2#32)).script = [.txn (.write 0x10#32 4 2#32)] := by decide +kernel
theorem witness_host_default :
    { idle with script := [lw 0x014] }.turns = [] ∧ { idle with script := [lw 0x014] }.busy = false ∧
      { idle with script := [lw 0x014] }.script = [.txn (.read 0x14#32 4)] := by decide +kernel
theorem witness_host_no_line :
    { idle with turns := [.host] }.turns = [.host] ∧ { idle with turns := [.host] }.script = [] ∧
      idle.turns = [] ∧ idle.busy = false ∧ idle.script = [] := by decide +kernel
theorem witness_rotation : (1 ≤ 31 ∧ 31 ≤ 31 ∧ 0 < 32) ∧ (rotl 31 1#32).getLsbD 31 = true ∧ (rotl 1 0x80000000#32).getLsbD 0 = true := by decide +kernel
theorem witness_pack : 4 < [1#8, 2#8, 3#8, 4#8, 5#8].length ∧ [1#8, 2#8, 3#8, 4#8, 5#8].length ≤ 7 ∧
    7 < 4 * (packBE [1#8, 2#8, 3#8, 4#8, 5#8]).length := by decide +kernel
theorem witness_unpack : 8 ≤ 4 * [0xA9993E36#32, 0x47000000#32].length ∧ 7 < 8 := by decide +kernel
theorem witness_pad_one_block : (List.replicate 14 0#32).length = (440 + 31) / 32 ∧ 13 < (List.replicate 14 0#32).length := by decide +kernel
theorem witness_pad_two_blocks :
    (List.replicate 14 0#32).length = (448 + 31) / 32 ∧ (14 ≤ 15 ∧ 15 ≠ 448 / 32 ∧ 15 < 16 * blockCount 448 - 1) := by decide +kernel
theorem witness_schedule : (List.replicate 16 0#32).length = 16 ∧ (15 < 16) ∧ (16 ≤ 16 ∧ 79 < 80) := by decide +kernel
theorem witness_hex_digits : 3 < [0x00#8, 0x0F#8, 0xA9#8, 0xFF#8].length := by decide +kernel
theorem witness_b64_groups : 1 < ([1#8, 2#8, 3#8, 4#8].length + 2) / 3 ∧ 3 < 4 ∧ 0 + 1 < ([1#8, 2#8, 3#8, 4#8].length + 2) / 3 ∧ 63 < 64 := by decide +kernel
theorem witness_full_len : 2 ≤ 2 ∧ 2 ^ (8 * 1) ≤ 2 ^ 8 := by decide +kernel
theorem witness_radix_value : 2 ≤ (zeros 2).length ∧ (zeros 256).length ≤ 256 := by decide +kernel
theorem witness_enc_len : Enc.radix = Enc.radix → 2 ≤ (zeros 2).length := by decide +kernel

end Sys2Proof.Tests
end

section
/-! PROOFS. The state family (spec 10_state R21 to R47): the invariants every step keeps, the register map, and what a
host transaction and a step can do to BUSY and to the results. -/

namespace Sys2Proof.Machine

/-! The step, turn by turn (20_memory R73, log 1). -/

/-- With no turn listed a busy engine acts, else the host (log 1). -/
theorem step_of_no_turn {s : State} (h : s.turns = []) :
    step s = if s.busy = true then completionStep s else hostStep s := by
  simp only [step, nextEvent, h]

theorem step_of_host_turn {s : State} {ts : List Turn} (h : s.turns = .host :: ts) :
    step s = hostStep { s with turns := ts } := by
  simp only [step, nextEvent, h]

theorem step_of_engine_turn {s : State} {ts : List Turn} (h : s.turns = .engine :: ts) :
    step s = engineTurn { s with turns := ts } := by
  simp only [step, nextEvent, h]

/-- An idle engine lets its turn pass (log 1). -/
theorem engineTurn_of_idle {s : State} (hb : s.busy = false) : engineTurn s = .next s := by
  rw [engineTurn, hb, if_neg Bool.false_ne_true]

theorem step_of_reset_turn {s : State} {ts : List Turn} (h : s.turns = .reset :: ts) :
    step s = .next (State.platformReset { s with turns := ts }) := by
  simp only [step, nextEvent, h]

/-! O38: STATUS and CFG. -/

/-- STATUS and CFG are legal (R27, R33). -/
def StatusCfgOk (s : State) : Prop := StatusOk s.status ∧ s.cfg &&& ~~~cfgFields = 0#32

/-- A stored CFG has no bit outside its fields (R33). -/
theorem cfg_stored_reserved (v : Word) : v &&& cfgFields &&& ~~~cfgFields = 0#32 := by
  rw [BitVec.and_assoc, show cfgFields &&& ~~~cfgFields = 0#32 by decide, BitVec.and_zero]

/-- A host transaction keeps STATUS and CFG legal (R26, R27, R33, R72). -/
theorem BusEffect.statusCfgOk {s u : State} (h : StatusCfgOk s) (hu : BusEffect s u) : StatusCfgOk u := by
  obtain ⟨hst, hcfg⟩ := h
  cases hu with
  | drop => exact ⟨statusOk_onDrop hst, hcfg⟩
  | start _ v => exact ⟨statusOk_onStart hst, hcfg⟩
  | status v => exact ⟨statusOk_onWrite v hst, hcfg⟩
  | cfg _ v => exact ⟨hst, cfg_stored_reserved v⟩
  | store _ b => rw [StatusCfgOk, State.setBuf_status, State.setBuf_cfg]; exact ⟨hst, hcfg⟩
  | nothing | msgLen | keyLen | alphaLen => exact ⟨hst, hcfg⟩

/-- A completion keeps STATUS and CFG legal (R225, R248). -/
theorem completionStep_statusCfgOk {s t : State} (h : StatusCfgOk s) (ht : completionStep s = .next t) :
    StatusCfgOk t := by
  obtain ⟨hst, hcfg⟩ := h
  rcases completionStep_cases ht with ⟨e, rfl⟩ | ⟨_, _, _, _, -, -, -, -, -, rfl⟩
  · exact ⟨statusOk_onError e hst, hcfg⟩
  · exact ⟨statusOk_onCommit hst, hcfg⟩

/-- STATUS and CFG have legal values after a reset (R270). -/
theorem platformReset_statusCfgOk (s : State) : StatusCfgOk s.platformReset := by
  unfold StatusCfgOk StatusOk
  rw [State.platformReset_status, State.platformReset_cfg]
  decide

/-- Settles O38: every kind of event keeps both words legal. -/
theorem stepKeepsStatusAndCfgLegal : Obligations.StepKeepsStatusAndCfgLegal := fun _ _ hst hcfg h =>
  step_preserves (P := StatusCfgOk) (fun _ _ h => h) (fun _ _ h => h) (fun _ _ h => h)
    (fun _ _ => BusEffect.statusCfgOk) (fun s _ => platformReset_statusCfgOk s) (fun _ _ => completionStep_statusCfgOk)
    h ⟨hst, hcfg⟩

/-! O39: the command latch. -/

/-- While BUSY = 0 nothing is latched. -/
theorem LatchOk.latch_eq_none {s : State} (h : LatchOk s) (hb : s.busy = false) : s.latch = none := by
  simpa [hb] using h.1

/-- With nothing latched and BUSY = 0 the latch agrees with the registers, whatever they hold. -/
theorem latchOk_of_idle {s : State} (hl : s.latch = none) (hb : s.busy = false) : LatchOk s :=
  ⟨by rw [hl, hb]; rfl, fun l h => by rw [hl] at h; cases h⟩

/-- A host transaction keeps the latch equal to the registers, which BUSY = 1 locks (R46, R72). -/
theorem BusEffect.latchOk {s u : State} (h : LatchOk s) (hu : BusEffect s u) : LatchOk u := by
  cases hu with
  | nothing => exact h
  | drop => exact ⟨h.1.trans (statusBusy_onDrop s.status).symm, h.2⟩
  | start _ v => exact ⟨(statusBusy_onStart s.status).symm, fun l hl => (Option.some.inj hl).symm⟩
  | status v => exact ⟨h.1.trans (statusBusy_onWrite s.status v).symm, h.2⟩
  | cfg hb | msgLen hb | keyLen hb | alphaLen hb => exact latchOk_of_idle (h.latch_eq_none hb) hb
  | store hb b => cases b <;> exact latchOk_of_idle (h.latch_eq_none hb) hb

/-- A completion leaves nothing latched and BUSY = 0 (R225, R248). -/
theorem completionStep_idle {s t : State} (h : completionStep s = .next t) : t.latch = none ∧ t.busy = false := by
  rcases completionStep_cases h with ⟨e, rfl⟩ | ⟨_, _, _, _, -, -, -, -, -, rfl⟩
  all_goals exact ⟨rfl, statusBusy_onFinish _ _ _⟩

/-- A reset cancels the command in flight (R272). -/
@[simp] theorem State.platformReset_busy (s : State) : s.platformReset.busy = false := by
  rw [State.busy, State.platformReset_status]; decide

/-- Settles O39: a CMD write latches the registers, a completion or a reset empties the latch, and while BUSY = 1 no
register can change. -/
theorem stepKeepsLatchEqualToRegisters : Obligations.StepKeepsLatchEqualToRegisters := fun _ _ hok h =>
  step_preserves (P := LatchOk) (fun _ _ h => h) (fun _ _ h => h) (fun _ _ h => h)
    (fun _ _ => BusEffect.latchOk) (fun _ _ => latchOk_of_idle rfl (State.platformReset_busy _))
    (fun _ _ _ h => latchOk_of_idle (completionStep_idle h).1 (completionStep_idle h).2) h hok

/-! O40: the buffers. -/

/-- The encoder's output has the length R193 computes in advance. -/
theorem encodeOut_length (e : Enc) (cfg : Word) (a s : List Byte) (ha : e = .radix → 2 ≤ a.length) :
    (encodeOut e cfg a s).length = encLen e s.length a.length := by
  cases e with
  | raw => rfl
  | hex => exact hexEnc_length s _
  | b64 => exact b64Enc_length s _
  | radix => exact radixEnc_length s a (ha rfl)

/-- EncLen uses the alphabet's length for RADIX alone (R193). -/
theorem encLen_congr {e : Enc} {r r' : Nat} (h : e = .radix → r' = r) (n : Nat) : encLen e n r' = encLen e n r := by
  cases e with
  | radix => rw [h rfl]
  | raw | hex | b64 => rfl

/-- The output of a command whose checks pass is EncLen long, so it fits in OUT (R246, R247). -/
theorem output_length_le {s : State} {f : Func} {e : Enc} {m a : List Byte} (k : List Byte)
    (hr : s.rangeError f e = none) (hm : s.message = some m) (ha : s.alphabet e = some a) (cfg : Word) :
    (encodeOut e cfg a (source f m k).1).length ≤ s.caps.outCap := by
  obtain ⟨-, -, hrad, hout⟩ := rangeError_eq_none.mp hr
  have hal : e = .radix → a.length = s.radix := by
    rintro rfl; exact (alphabet_radix_eq_some.mp ha).1
  rw [encodeOut_length e cfg a _ fun he => by have := hal he; have := hrad he; omega, source_length,
    (message_eq_some.mp hm).1, encLen_congr hal]
  exact hout

/-- Bytes written inside a buffer keep its list in its one form and inside (R40). -/
theorem writeRange_bufOk {m : Memory} {cap off : Nat} {bs : List Byte} (h : m.wf ∧ ∀ c ∈ m, c.1 < cap)
    (hfit : off + bs.length ≤ cap) :
    (Memory.writeRange m off bs).wf ∧ ∀ c ∈ Memory.writeRange m off bs, c.1 < cap := by
  obtain ⟨hwf, hin⟩ := h
  refine ⟨Memory.writeRange_wf hwf off bs, fun c hc => ?_⟩
  rcases Memory.mem_writeRange hc with hc | hc
  · omega
  · exact hin c hc

/-- Replacing a buffer changes no capacity. -/
theorem State.bufCap_setBuf (s : State) (b c : Buf) (m : Memory) : (s.setBuf b m).bufCap c = s.bufCap c := by
  cases b <;> rfl

/-- A host write to MSG, KEY or ALPHA that fits its buffer keeps the buffers in bounds (R64). -/
theorem setBuf_buffersOk {s : State} {b : Buf} {off n : Nat} {v : Word} (h : BuffersOk s) (hout : b ≠ .out)
    (hfit : off + n ≤ s.bufCap b) : BuffersOk (s.setBuf b (Memory.writeRange (s.buf b) off (leBytes n v))) := by
  obtain ⟨hcaps, hbufs, houtput⟩ := h
  have hbuf : ∀ c, BufOk (s.setBuf b (Memory.writeRange (s.buf b) off (leBytes n v))) c := by
    intro c
    unfold BufOk
    rw [State.buf_setBuf, State.bufCap_setBuf]
    split
    · subst c; exact writeRange_bufOk (hbufs b) (by rwa [leBytes_length])
    · exact hbufs c
  cases b with
  | out => exact absurd rfl hout
  | msg | key | alpha => exact ⟨hcaps, hbuf, houtput⟩

/-- A host transaction keeps the buffers in bounds (R40, R62). -/
theorem BusEffect.buffersOk {s u : State} (h : BuffersOk s) (hu : BusEffect s u) : BuffersOk u := by
  cases hu with
  | store _ b hout off n v hfit => exact setBuf_buffersOk h hout (hfit h.1)
  | nothing | drop | start | status | cfg | msgLen | keyLen | alphaLen => exact h

/-- A commit that fits in OUT leaves OUT_LEN its length and OUT[0..OUT_LEN) written (R225). -/
theorem commit_buffersOk {s : State} {o : List Byte} (h : BuffersOk s) (ho : o.length ≤ s.caps.outCap)
    (hd : Option Digest) : BuffersOk (s.commit o hd) := by
  obtain ⟨hcaps, hbufs, -⟩ := h
  have hlen : (s.commit o hd).outLen.toNat = o.length := by
    have := hcaps
    simp only [Config.Caps.legal, Bool.and_eq_true, decide_eq_true_eq] at this
    rw [State.commit_outLen, BitVec.toNat_ofNat, Nat.mod_eq_of_lt (by omega)]
  have hob := writeRange_bufOk (off := 0) (bs := o) (hbufs .out) (by rw [Nat.zero_add]; exact ho)
  refine ⟨hcaps, fun | .msg => hbufs .msg | .key => hbufs .key | .alpha => hbufs .alpha | .out => hob, ?_, ?_⟩
  · rw [hlen]; exact ho
  · intro i hi
    rw [hlen] at hi
    rw [(commit_committed s o hd).out i hi, List.getElem?_eq_getElem hi]; rfl

/-- A completion keeps the buffers in bounds (R246). -/
theorem completionStep_buffersOk {s t : State} (h : BuffersOk s) (ht : completionStep s = .next t) : BuffersOk t := by
  rcases completionStep_cases ht with ⟨e, rfl⟩ | ⟨_, _, k, _, -, hr, hm, -, ha, rfl⟩
  · exact h
  · exact commit_buffersOk h (output_length_le k hr hm ha _) _

/-- After a reset nothing is written (R270, R271). -/
theorem platformReset_buffersOk {s : State} (h : BuffersOk s) : BuffersOk s.platformReset := by
  have hempty : ∀ b, s.platformReset.buf b = [] := fun b => by cases b <;> rfl
  refine ⟨h.1, fun b => ⟨s.platformReset_buf_wf b, ?_⟩, Nat.zero_le _, fun i hi => absurd hi i.not_lt_zero⟩
  rw [hempty]
  exact fun c hc => absurd hc List.not_mem_nil

/-- Settles O40: host writes fit their buffers since legal capacities are multiples of 4, and a commit fits in OUT since
the checks passed. -/
theorem stepKeepsBuffersInBounds : Obligations.StepKeepsBuffersInBounds := fun _ _ hok h =>
  step_preserves (P := BuffersOk) (fun _ _ h => h) (fun _ _ h => h) (fun _ _ h => h)
    (fun _ _ => BusEffect.buffersOk) (fun _ => platformReset_buffersOk) (fun _ _ => completionStep_buffersOk) h hok

/-! O20 to O24: word accesses to registers. -/

/-- A word write of a register offset that is not locked out changes that register and observes OKAY (R65, R72). -/
theorem perform_write_reg (s : State) (a v : Word) (h4 : a.toNat % 4 = 0) (hlt : a.toNat < 0x1000)
    (hb : s.busy = false ∨ regAt a.toNat = .status) :
    perform s (.write a 4 v) = .next ((s.writeReg (regAt a.toNat) v).observe (.write .okay)) := by
  rw [perform, busWrite_reg s a v h4 hlt hb]

/-- A word read of a register offset that is not locked out observes that register (R65, R72). -/
theorem perform_read_reg (s : State) (a : Word) (h4 : a.toNat % 4 = 0) (hlt : a.toNat < 0x1000)
    (hb : s.busy = false ∨ (regAt a.toNat).readsWhileBusy = true) :
    perform s (.read a 4) = .next (s.observe (.read .okay (s.readReg (regAt a.toNat)))) := by
  rw [perform, busRead_reg s a h4 hlt hb]

/-- The host writes only CMD, STATUS, CFG and the length registers: every other aligned offset ignores a write (R21,
R39). -/
theorem writeReg_readOnly (s : State) (v : Word) {off : Nat} (h4 : off % 4 = 0) (h : off ≤ 0xC ∨ 0x28 ≤ off) :
    s.writeReg (regAt off) v = s := by
  have offsets : (off = 0x2C ∨ 0x44 ≤ off) ∨ off = 0x0 ∨ off = 0x4 ∨ off = 0x8 ∨ off = 0xC ∨
      off = 0x28 ∨ off = 0x30 ∨ off = 0x34 ∨ off = 0x38 ∨ off = 0x3C ∨ off = 0x40 := by omega
  rcases offsets with hres | rfl | rfl | rfl | rfl | rfl | rfl | rfl | rfl | rfl | rfl
  · rw [regAt_reserved hres]; rfl
  all_goals rfl

/-- A write to an offset the host cannot write changes nothing but the observation (R21, R39). -/
theorem perform_write_readOnly {s : State} {a : Word} (v : Word) (hb : s.busy = false) (h4 : a.toNat % 4 = 0)
    (hlt : a.toNat < 0x1000) (h : a.toNat ≤ 0xC ∨ 0x28 ≤ a.toNat) :
    perform s (.write a 4 v) = .next (s.observe (.write .okay)) := by
  rw [perform_write_reg s a v h4 hlt (.inl hb), writeReg_readOnly s v h4 h]

/-- Settles O20: the accepted write is startCommand, whose fields the laws of STATUS give. -/
theorem acceptedCmdWriteStartsTheCommand : Obligations.AcceptedCmdWriteStartsTheCommand := by
  refine ⟨fun s v hb => ⟨_, perform_write_reg s 0x10#32 v (by decide) (by decide) (.inl hb), rfl, rfl, rfl, ?_⟩,
    fun s hb => busRead_reg s 0x10#32 (by decide) (by decide) (.inl hb), rfl⟩
  exact ⟨statusBusy_onStart _, statusDone_onStart _, statusErr_onStart _, statusErrCode_onStart _,
    statusBusyErr_onStart _, reserved_onStart _, rfl⟩

/-- A STATUS write changes no bit but BUSYERR (R27). -/
theorem statusOnWrite_getLsbD (w v : Word) {k : Nat} (hk : k ≠ 3) : (statusOnWrite w v).getLsbD k = w.getLsbD k := by
  unfold statusOnWrite
  split
  · rw [putBit_getLsbD _ _ (by decide), if_neg hk]
  · rfl

/-- Settles O21: STATUS is never locked out, and its write is statusOnWrite. -/
theorem statusWriteClearsBusyErrOnly : Obligations.StatusWriteClearsBusyErrOnly := fun s v =>
  ⟨_, perform_write_reg s 0x14#32 v (by decide) (by decide) (.inr rfl), rfl, statusBusyErr_onWrite s.status v,
    fun _ hk => statusOnWrite_getLsbD s.status v hk, rfl⟩

/-- Settles O22: each offset names its register in the map, and the others are reserved. -/
theorem idleRegisterReads : Obligations.IdleRegisterReads := by
  intro s hb
  have read : ∀ a : Word, a.toNat % 4 = 0 → a.toNat < 0x1000 →
      busRead s a 4 = some (.read .okay (s.readReg (regAt a.toNat))) :=
    fun a h4 hlt => busRead_reg s a h4 hlt (.inl hb)
  refine ⟨read 0x00#32 ?_ ?_, read 0x04#32 ?_ ?_, read 0x08#32 ?_ ?_, read 0x0C#32 ?_ ?_, read 0x10#32 ?_ ?_,
    read 0x14#32 ?_ ?_, read 0x18#32 ?_ ?_, read 0x1C#32 ?_ ?_, read 0x20#32 ?_ ?_, read 0x24#32 ?_ ?_,
    read 0x28#32 ?_ ?_, read 0x30#32 ?_ ?_, read 0x34#32 ?_ ?_, read 0x38#32 ?_ ?_, read 0x3C#32 ?_ ?_,
    read 0x40#32 ?_ ?_, fun a h4 hres => ?reserved⟩
  case reserved =>
    have hoff : a.toNat < 0x1000 ∧ (a.toNat = 0x2C ∨ 0x44 ≤ a.toNat) := by
      rcases hres with rfl | hres
      · decide
      · omega
    rw [read a h4 hoff.1, regAt_reserved hoff.2]; rfl
  all_goals decide

/-- No host transaction changes the capacities (log 4). -/
theorem BusEffect.caps {s u : State} (h : BusEffect s u) : u.caps = s.caps := by
  cases h with
  | store _ b => exact State.setBuf_caps s b _
  | _ => rfl

/-- No step changes the capacities (log 4). -/
theorem step_caps {s t : State} (h : step s = .next t) : t.caps = s.caps := by
  refine step_preserves (P := fun u => u.caps = s.caps) (fun _ _ h => h) (fun _ _ h => h) (fun _ _ h => h)
    (fun _ _ h hu => hu.caps.trans h) (fun _ h => h) (fun u t hu ht => ?_) h rfl
  rcases completionStep_cases ht with ⟨_, rfl⟩ | ⟨_, _, _, _, -, -, -, -, -, rfl⟩ <;> exact hu

/-- Settles O23: the four registers are never locked out for reads, and no writable register stands at their offsets. -/
theorem constantRegistersNeverChange : Obligations.ConstantRegistersNeverChange := by
  refine ⟨fun s => ⟨?_, ?_, ?_, ?_⟩, fun s a v hb h4 hle => ?_, fun _ _ => step_caps⟩
  · exact perform_read_reg s 0x0#32 (by decide) (by decide) (.inr rfl)
  · exact perform_read_reg s 0x4#32 (by decide) (by decide) (.inr rfl)
  · exact perform_read_reg s 0x8#32 (by decide) (by decide) (.inr rfl)
  · exact perform_read_reg s 0xC#32 (by decide) (by decide) (.inr rfl)
  · exact perform_write_readOnly v hb h4 (by omega) (.inl hle)

/-- Settles O24: the map names the four written registers, and every other offset is read-only. -/
theorem idleRegisterWrites : Obligations.IdleRegisterWrites := by
  refine fun s v hb => ⟨?_, ?_, ?_, ?_, fun a h4 hlt h => perform_write_readOnly v hb h4 hlt h⟩
  · exact perform_write_reg s 0x18#32 v (by decide) (by decide) (.inl hb)
  · exact perform_write_reg s 0x1C#32 v (by decide) (by decide) (.inl hb)
  · exact perform_write_reg s 0x20#32 v (by decide) (by decide) (.inl hb)
  · exact perform_write_reg s 0x24#32 v (by decide) (by decide) (.inl hb)

/-! O33, O34: what the host cannot change, and who sets and clears BUSY. -/

/-- No host transaction writes OUT, OUT_LEN or DIGEST (R37, R38, R40). -/
theorem BusEffect.keeps_results {s u : State} (h : BusEffect s u) :
    u.out = s.out ∧ u.outLen = s.outLen ∧ u.digest = s.digest := by
  cases h with
  | store _ b hout =>
    cases b with
    | out => exact absurd rfl hout
    | msg | key | alpha => exact ⟨rfl, rfl, rfl⟩
  | _ => exact ⟨rfl, rfl, rfl⟩

/-- Settles O33: no effect of a transaction touches a result, and under BUSY only STATUS's bit 3 is left to change. -/
theorem hostNeverWritesResults : Obligations.HostNeverWritesResults := by
  intro s t x h
  obtain ⟨u, r, hu, rfl⟩ := perform_effect h
  obtain ⟨hout, hlen, hdigest⟩ := hu.keeps_results
  refine ⟨⟨hout, hlen, hdigest, hu.caps⟩, fun hb => ?_⟩
  obtain ⟨w, rfl, -, hbits⟩ := hu.of_busy hb
  exact ⟨hbits, rfl⟩

/-- CMD stands at offset 0x10 alone (R21). -/
theorem regAt_eq_cmd {off : Nat} (h : regAt off = .cmd) : off = 0x10 := by
  unfold regAt at h
  split at h
  · rename_i row hrow
    have hmem := List.mem_of_find?_eq_some hrow
    have hoff : row.1 = off := by simpa using List.find?_some hrow
    subst hoff
    have cmdRow : ∀ row ∈ regMap, row.2 = .cmd → row.1 = 0x10 := by decide
    exact cmdRow row hmem h
  · cases h

/-- A register write sets BUSY only where the register is CMD (R26). -/
theorem writeReg_busy {s : State} {r : RegName} {v : Word} (hr : r ≠ .cmd) : (s.writeReg r v).busy = s.busy := by
  cases r with
  | cmd => exact absurd rfl hr
  | status => exact statusBusy_onWrite s.status v
  | _ => rfl

/-- A write sets BUSY only as a word write to CMD, which is then accepted (R26, R28). -/
theorem busWrite_sets_busy {s : State} {a v : Word} {n : Nat} (hb : s.busy = false)
    (h : (busWrite s a n v).1.busy = true) :
    a = 0x10#32 ∧ n = 4 ∧ (busWrite s a n v).1 = s.startCommand v := by
  unfold busWrite at h ⊢
  cases hc : busCheck s true a n with
  | error e => simp [hc, hb] at h
  | ok p =>
    obtain ⟨hloc, hn, -, hbyte, -⟩ := busCheck_ok hc
    simp only [hc, hb, Bool.false_and, Bool.false_eq_true, if_false] at h ⊢
    rcases locate_cases hloc with ⟨-, rfl⟩ | ⟨b, rfl, -, -⟩
    · have hcmd : regAt a.toNat = .cmd := by
        by_contra hne
        rw [writePlace, writeReg_busy hne, hb] at h; cases h
      refine ⟨BitVec.eq_of_toNat_eq (regAt_eq_cmd hcmd), hn.resolve_left fun h1 => ?_, ?_⟩
      · cases hbyte h1
      · rw [writePlace, hcmd]; rfl
    · have hkeep : (writePlace s n v (.buf b (a.toNat - bufBase b))).busy = s.busy := by cases b <;> rfl
      rw [hkeep, hb] at h; cases h

/-- A host turn sets BUSY only by an accepted word write to CMD (R26, R28). -/
theorem hostStep_sets_busy {s t : State} (hb : s.busy = false) (h : hostStep s = .next t) (ht : t.busy = true) :
    ∃ v rest, s.script = .txn (.write 0x10#32 4 v) :: rest ∧ t.cmd = v ∧ t.latch = some (s.capture v) := by
  unfold hostStep at h
  split at h
  · cases h; exact absurd (hb.symm.trans ht) Bool.false_ne_true
  · rename_i x rest hscript
    cases x with
    | read a n =>
      simp only [perform] at h
      split at h <;> cases h
      exact absurd (hb.symm.trans ht) Bool.false_ne_true
    | write a n v =>
      cases h
      obtain ⟨rfl, rfl, hs⟩ := busWrite_sets_busy (s := { s with script := rest }) hb ht
      exact ⟨v, rest, hscript, by rw [hs]; rfl, by rw [State.observe_latch, hs]; rfl⟩
  · split at h <;> cases h
    exact absurd (hb.symm.trans ht) Bool.false_ne_true

/-- Settles O34: turn by turn, only the host's sets BUSY, and the host's does not clear it. -/
theorem busySetByCmdWriteClearedByCompletion : Obligations.BusySetByCmdWriteClearedByCompletion := by
  intro s t h
  cases hturns : s.turns with
  | nil =>
    refine ⟨fun hb ht => ⟨.inl rfl, ?_⟩, fun _ _ => .inl rfl⟩
    rw [step_of_no_turn hturns, hb, if_neg Bool.false_ne_true] at h
    exact hostStep_sets_busy hb h ht
  | cons turn ts =>
    cases turn with
    | host =>
      rw [step_of_host_turn hturns] at h
      refine ⟨fun hb ht => ⟨.inr ⟨ts, rfl⟩, ?_⟩, fun hb ht => ?_⟩
      · exact hostStep_sets_busy (s := { s with turns := ts }) hb h ht
      · rw [(hostStep_of_busy (s := { s with turns := ts }) hb h).1] at ht; cases ht
    | engine =>
      refine ⟨fun hb ht => ?_, fun _ _ => .inr ⟨ts, .inl rfl⟩⟩
      rw [step_of_engine_turn hturns, engineTurn_of_idle (s := { s with turns := ts }) hb] at h
      cases h
      exact absurd (hb.symm.trans ht) Bool.false_ne_true
    | reset =>
      refine ⟨fun hb ht => ?_, fun _ _ => .inr ⟨ts, .inr rfl⟩⟩
      rw [step_of_reset_turn hturns] at h
      cases h
      rw [State.platformReset_busy] at ht; cases ht

end Sys2Proof.Machine
end

section
/-! PROOFS. The memory family (spec 20_memory R60 to R73), its key: the contents of KEY reach nothing but the
result of an HMAC command (R67, R254). -/

namespace Sys2Proof.Machine

/-! O37: forgetting KEY commutes with every event but an HMAC completion. -/

/-- What an event gives, KEY forgotten. -/
def forgetKey : Result → Result
  | .next s => .next s.withoutKey
  | .fault f => .fault f
  | .refused r => .refused r

@[simp] theorem State.withoutKey_busy (s : State) : s.withoutKey.busy = s.busy := rfl
@[simp] theorem State.withoutKey_operands (s : State) : s.withoutKey.operands = s.operands := rfl
@[simp] theorem State.withoutKey_observe (s : State) (r : Response) :
    (s.observe r).withoutKey = s.withoutKey.observe r := rfl

/-- The decode check looks at no buffer's contents (R62). -/
@[simp] theorem busCheck_withoutKey (s : State) (w : Bool) (a : Word) (n : Nat) :
    busCheck s.withoutKey w a n = busCheck s w a n := rfl

/-- A transaction's read does not depend on KEY, whose bytes read as 0 (R67). -/
theorem readPlace_withoutKey (s : State) (n : Nat) (p : Place) : readPlace s.withoutKey n p = readPlace s n p := by
  cases p with
  | reg off => rw [readPlace, readPlace]; cases regAt off <;> rfl
  | buf b off => cases b <;> rfl

/-- No read's answer depends on KEY (R67). -/
theorem busRead_withoutKey (s : State) (a : Word) (n : Nat) : busRead s.withoutKey a n = busRead s a n := by
  simp only [busRead, busCheck_withoutKey, State.withoutKey_busy, readPlace_withoutKey]

/-- A write taking its normal effect stores the key's bytes in KEY alone (R67). -/
theorem writePlace_withoutKey (s : State) (n : Nat) (v : Word) (p : Place) :
    (writePlace s.withoutKey n v p).withoutKey = (writePlace s n v p).withoutKey := by
  cases p with
  | reg off => rw [writePlace, writePlace]; cases regAt off <;> rfl
  | buf b off => cases b <;> rfl

/-- A write's response does not depend on KEY, nor does what it leaves outside KEY (R67). -/
theorem busWrite_withoutKey (s : State) (a : Word) (n : Nat) (v : Word) :
    (busWrite s.withoutKey a n v).1.withoutKey = (busWrite s a n v).1.withoutKey ∧
      (busWrite s.withoutKey a n v).2 = (busWrite s a n v).2 := by
  unfold busWrite
  rw [busCheck_withoutKey, State.withoutKey_busy]
  cases busCheck s true a n with
  | error e => exact ⟨rfl, rfl⟩
  | ok p =>
    dsimp only
    cases s.busy && !p.isStatus with
    | true => exact ⟨rfl, rfl⟩
    | false => exact ⟨writePlace_withoutKey s n v p, rfl⟩

/-- A host transaction does the same outside KEY whatever KEY holds (R67). -/
theorem perform_withoutKey (s : State) (x : Txn) :
    forgetKey (perform s.withoutKey x) = forgetKey (perform s x) := by
  cases x with
  | read a n =>
    rw [perform, perform, busRead_withoutKey]
    cases busRead s a n <;> rfl
  | write a n v =>
    obtain ⟨hstate, hresp⟩ := busWrite_withoutKey s a n v
    simp only [perform, forgetKey, State.withoutKey_observe, hstate, hresp]

/-- The host's turn does the same outside KEY whatever KEY holds. -/
theorem hostStep_withoutKey (s : State) : forgetKey (hostStep s.withoutKey) = forgetKey (hostStep s) := by
  have hscript : s.withoutKey.script = s.script := rfl
  unfold hostStep
  rw [hscript]
  cases hs : s.script with
  | nil => rfl
  | cons line rest =>
    cases line with
    | txn x => exact perform_withoutKey { s with script := rest } x
    | poll a mask v =>
      simp only [busRead_withoutKey]
      cases busRead s a 4 <;> rfl

/-- A command other than HMAC does not consume KEY (R95). -/
theorem runCommand_withoutKey {f : Func} (hf : f ≠ .hmac) (e : Enc) (s : State) :
    forgetKey (runCommand f e s.withoutKey) = forgetKey (runCommand f e s) := by
  have hrange : s.withoutKey.rangeError f e = s.rangeError f e := rfl
  have hmsg : s.withoutKey.message = s.message := rfl
  have hkey : s.withoutKey.keyBytes f = s.keyBytes f := by
    cases f with
    | hmac => exact absurd rfl hf
    | none | sha1 => rfl
  have halpha : s.withoutKey.alphabet e = s.alphabet e := by cases e <;> rfl
  unfold runCommand
  rw [hrange, hmsg, hkey, halpha]
  cases s.rangeError f e with
  | some err => rfl
  | none => cases s.message <;> cases s.keyBytes f <;> cases s.alphabet e <;> rfl

/-- The completion of a command other than HMAC does the same outside KEY whatever KEY holds (R95, R254). -/
theorem completionStep_withoutKey {s : State} (hb : s.busy = true) (h : s.runsHmac = false) :
    forgetKey (completionStep s.withoutKey) = forgetKey (completionStep s) := by
  unfold completionStep
  rw [State.withoutKey_operands]
  cases hd : decode s.operands.cmd with
  | error e => rfl
  | ok i =>
    have hf : funcOf i ≠ .hmac := by simpa [State.runsHmac, hb, hd] using h
    simp only [exec_eq_runCommand]
    exact runCommand_withoutKey hf _ s

/-- The engine's event, unless it completes an HMAC command, does the same outside KEY whatever KEY holds. -/
theorem engineTurn_withoutKey {s : State} (h : s.runsHmac = false) :
    forgetKey (engineTurn s.withoutKey) = forgetKey (engineTurn s) := by
  unfold engineTurn
  rw [State.withoutKey_busy]
  split
  · exact completionStep_withoutKey ‹_› h
  · rfl

/-- Every step but an HMAC completion does the same outside KEY whatever KEY holds (R67, R254). -/
theorem step_withoutKey {s : State}
    (h : ¬(s.runsHmac = true ∧ (s.turns = [] ∨ ∃ ts, s.turns = .engine :: ts))) :
    forgetKey (step s.withoutKey) = forgetKey (step s) := by
  cases hturns : s.turns with
  | nil =>
    have hh : s.runsHmac = false := by simpa [hturns] using h
    rw [step_of_no_turn hturns, step_of_no_turn (s := s.withoutKey) hturns, State.withoutKey_busy]
    split
    · exact completionStep_withoutKey ‹_› hh
    · exact hostStep_withoutKey s
  | cons turn ts =>
    cases turn with
    | host =>
      rw [step_of_host_turn hturns, step_of_host_turn (s := s.withoutKey) hturns]
      exact hostStep_withoutKey { s with turns := ts }
    | engine =>
      have hh : s.runsHmac = false := by simpa [hturns] using h
      rw [step_of_engine_turn hturns, step_of_engine_turn (s := s.withoutKey) hturns]
      exact engineTurn_withoutKey (s := { s with turns := ts }) hh
    | reset =>
      rw [step_of_reset_turn hturns, step_of_reset_turn (s := s.withoutKey) hturns]
      rfl

/-- Settles O37: each of two states that differ in KEY alone steps as the one state they are without it. -/
theorem keyReachesHmacResultsOnly : Obligations.KeyReachesHmacResultsOnly := by
  intro s t hst hno
  have hnot : ¬(t.withoutKey.runsHmac = true ∧
      (t.withoutKey.turns = [] ∨ ∃ ts, t.withoutKey.turns = .engine :: ts)) := hst ▸ hno
  have hstep : forgetKey (step s) = forgetKey (step t) := by
    rw [← step_withoutKey hno, hst, step_withoutKey (s := t) hnot]
  refine ⟨fun s' hs => ?_, fun f hs => ?_⟩
  · rw [hs] at hstep
    cases ht : step t with
    | next t' => rw [ht] at hstep; exact ⟨t', rfl, Host.Outcome.next.inj hstep⟩
    | fault _ | refused _ => rw [ht] at hstep; cases hstep
  · rw [hs] at hstep
    cases ht : step t with
    | fault g => rw [ht] at hstep; exact hstep.symm
    | next _ | refused _ => rw [ht] at hstep; cases hstep

end Sys2Proof.Machine
end
section
/-! PROOFS. The memory family, its bus transactions (spec 20_memory R60 to R73): the decode check and the busy lockout,
what an access of a buffer stores and returns, and the host's turn. -/

namespace Sys2Proof.Machine

/-! What a transaction answers, in the terms of the bus. -/

@[simp] theorem State.observe_busy (s : State) (r : Response) : (s.observe r).busy = s.busy := rfl
@[simp] theorem State.observe_buf (s : State) (r : Response) (b : Buf) : (s.observe r).buf b = s.buf b := by
  cases b <;> rfl

/-- The host tells two observations apart (R16). -/
theorem State.observe_inj {s t : State} {r r' : Response} (h : s.observe r = t.observe r') : r = r' :=
  (List.cons.inj (congrArg State.log h)).1

/-- A read answers a next state exactly by observing its response (R70). -/
theorem perform_read_eq_next {s t : State} {a : Word} {n : Nat} :
    perform s (.read a n) = .next t ↔ ∃ r, busRead s a n = some r ∧ t = s.observe r := by
  rw [perform]
  cases busRead s a n with
  | none => exact ⟨nofun, fun ⟨_, h, _⟩ => nomatch h⟩
  | some r =>
    constructor
    · rintro ⟨⟩; exact ⟨r, rfl, rfl⟩
    · rintro ⟨_, ⟨⟩, rfl⟩; rfl

theorem perform_read_of_busRead {s : State} {a : Word} {n : Nat} {r : Response} (h : busRead s a n = some r) :
    perform s (.read a n) = .next (s.observe r) :=
  perform_read_eq_next.mpr ⟨r, h, rfl⟩

/-- A read that passes the decode check is locked out or takes its normal effect (R72). -/
theorem busRead_of_check {s : State} {a : Word} {n : Nat} {p : Place} (h : busCheck s false a n = .ok p) :
    busRead s a n = if s.busy && !p.readsWhileBusy then some (.read .okay 0#32)
      else (readPlace s n p).map (Response.read .okay) := by
  rw [busRead, h]

/-- A write that passes the decode check is dropped or takes its normal effect (R72). -/
theorem busWrite_of_check {s : State} {a : Word} {n : Nat} {p : Place} (v : Word) (h : busCheck s true a n = .ok p) :
    busWrite s a n v = if s.busy && !p.isStatus then (s.dropWrite, .okay) else (writePlace s n v p, .okay) := by
  rw [busWrite, h]

/-! O25: the decode check. -/

/-- A read is answered BUSERR exactly when it fails the decode check (R63). -/
theorem busRead_eq_buserr_iff {s : State} {a : Word} {n : Nat} :
    busRead s a n = some (.read .buserr 0#32) ↔ ∃ e, busCheck s false a n = .error e := by
  cases h : busCheck s false a n with
  | error e => rw [busRead, h]; exact ⟨fun _ => ⟨e, rfl⟩, fun _ => rfl⟩
  | ok p =>
    rw [busRead_of_check h]
    refine ⟨fun hr => ?_, nofun⟩
    split at hr
    · cases hr
    · obtain ⟨_, -, hd⟩ := Option.map_eq_some_iff.mp hr; cases hd

/-- A write that fails the decode check is answered BUSERR and changes nothing (R63). -/
theorem busWrite_of_check_error {s : State} {a : Word} {n : Nat} {e : BusError} (v : Word)
    (h : busCheck s true a n = .error e) : busWrite s a n v = (s, .buserr) := by
  rw [busWrite, h]

/-- A write is answered BUSERR exactly when it fails the decode check (R63). -/
theorem busWrite_buserr_iff {s : State} {a : Word} {n : Nat} {v : Word} :
    (busWrite s a n v).2 = .buserr ↔ ∃ e, busCheck s true a n = .error e := by
  cases h : busCheck s true a n with
  | error e => rw [busWrite_of_check_error v h]; exact ⟨fun _ => ⟨e, rfl⟩, fun _ => rfl⟩
  | ok p =>
    rw [busWrite_of_check v h]
    refine ⟨fun hw => ?_, nofun⟩
    split at hw <;> cases hw

/-- Settles O25: BUSERR is the answer exactly where the decode check fails, and it fails exactly on R62's list. -/
theorem busErrorsChangeNothing : Obligations.BusErrorsChangeNothing := by
  intro s a n v hc
  refine ⟨?_, ?_⟩
  · have hcheck : (∃ e, busCheck s false a n = .error e) ↔ BadAccess s a n := by
      simpa using busCheck_error_iff (w := false) hc
    rw [← hcheck, ← busRead_eq_buserr_iff, perform_read_eq_next]
    exact ⟨fun ⟨r, hr, ho⟩ => State.observe_inj ho ▸ hr, fun hr => ⟨_, hr, rfl⟩⟩
  · have hcheck := busCheck_error_iff (s := s) (addr := a) (n := n) (w := true) hc
    simp only [true_and] at hcheck
    rw [← hcheck, perform]
    refine ⟨fun h => (busWrite_buserr_iff (v := v)).mp ?_, fun ⟨e, he⟩ => by rw [busWrite_of_check_error v he]⟩
    exact Response.write.inj (State.observe_inj (Host.Outcome.next.inj h))

/-! O26: the busy lockout. -/

/-- A transaction that R62 does not refuse passes the decode check. -/
theorem busCheck_of_not_bad {s : State} {w : Bool} {a : Word} {n : Nat} (hc : s.caps.legal = true)
    (hgood : ¬BadAccess s a n)
    (hw : w = true → ¬(0x80000000 ≤ a.toNat ∧ a.toNat < 0x80000000 + s.caps.outCap)) :
    ∃ p, busCheck s w a n = .ok p := by
  cases h : busCheck s w a n with
  | ok p => exact ⟨p, rfl⟩
  | error e =>
    rcases (busCheck_error_iff hc).mp ⟨e, h⟩ with hbad | ⟨ht, hout⟩
    · exact absurd hbad hgood
    · exact absurd hout (hw ht)

/-- A named register stands in the map at its offset (R21). -/
theorem regAt_mem {off : Nat} (h : regAt off ≠ .reserved) : (off, regAt off) ∈ regMap := by
  unfold regAt at h ⊢
  split at h
  · rename_i row hrow
    have hoff : row.1 = off := by simpa using List.find?_some hrow
    subst hoff
    exact List.mem_of_find?_eq_some hrow
  · exact absurd rfl h

/-- Only ID, the capacities and STATUS read normally while BUSY = 1 (R72). -/
theorem offset_of_readsWhileBusy {off : Nat} (h : (regAt off).readsWhileBusy = true) :
    off = 0x0 ∨ off = 0x4 ∨ off = 0x8 ∨ off = 0xC ∨ off = 0x14 := by
  have rows : ∀ row ∈ regMap, row.2.readsWhileBusy = true →
      row.1 = 0x0 ∨ row.1 = 0x4 ∨ row.1 = 0x8 ∨ row.1 = 0xC ∨ row.1 = 0x14 := by decide
  exact rows _ (regAt_mem fun hres => by rw [hres] at h; cases h) h

/-- STATUS stands at offset 0x14 alone (R21). -/
theorem regAt_eq_status {off : Nat} (h : regAt off = .status) : off = 0x14 := by
  have rows : ∀ row ∈ regMap, row.2 = .status → row.1 = 0x14 := by decide
  exact rows _ (regAt_mem (by rw [h]; decide)) h

/-- The offset of the register that a transaction acts on is its address (R61). -/
theorem toNat_of_check_reg {s : State} {w : Bool} {a : Word} {n off : Nat} (h : busCheck s w a n = .ok (.reg off)) :
    a.toNat = off := by
  obtain ⟨hloc, -⟩ := busCheck_ok h
  rcases locate_cases hloc with ⟨-, hp⟩ | ⟨_, hp, -⟩ <;> cases hp
  rfl

/-- Every place but ID, the capacities and STATUS is locked out of reads while BUSY = 1 (R72). -/
theorem readsWhileBusy_eq_false {s : State} {w : Bool} {a : Word} {n : Nat} {p : Place}
    (h : busCheck s w a n = .ok p) (h0 : a ≠ 0x0#32) (h4 : a ≠ 0x4#32) (h8 : a ≠ 0x8#32) (hC : a ≠ 0xC#32)
    (h14 : a ≠ 0x14#32) : p.readsWhileBusy = false := by
  cases p with
  | buf => rfl
  | reg off =>
    by_contra hne
    have hoff := offset_of_readsWhileBusy (Bool.not_eq_false _ ▸ hne)
    rw [← toNat_of_check_reg h] at hoff
    bv_omega

/-- Every place but STATUS drops writes while BUSY = 1 (R72). -/
theorem isStatus_eq_false {s : State} {w : Bool} {a : Word} {n : Nat} {p : Place} (h : busCheck s w a n = .ok p)
    (h14 : a ≠ 0x14#32) : p.isStatus = false := by
  cases p with
  | buf => rfl
  | reg off =>
    refine beq_eq_false_iff_ne.mpr fun hst => h14 ?_
    exact BitVec.eq_of_toNat_eq ((toNat_of_check_reg h).trans (regAt_eq_status hst))

/-- A dropped write changes no bit but BUSYERR (R31, R72). -/
theorem statusOnDrop_getLsbD (w : Word) {k : Nat} (hk : k ≠ 3) : (statusOnDrop w).getLsbD k = w.getLsbD k := by
  rw [statusOnDrop, putBit_getLsbD _ _ (by decide), if_neg hk]

/-- Settles O26: STATUS reads at all times, and any other place is locked out of reads, of writes, or of both. -/
theorem busyLockout : Obligations.BusyLockout := by
  intro s a n v hc hb hgood
  refine ⟨?_, fun h0 h4 h8 hC h14 => ?_, fun h14 hout => ?_⟩
  · rintro rfl
    have hn : n = 4 := by
      unfold BadAccess at hgood
      have : (0x14#32).toNat < 0x1000 := by decide
      omega
    subst hn
    exact perform_read_reg s 0x14#32 (by decide) (by decide) (.inr rfl)
  · obtain ⟨p, hp⟩ := busCheck_of_not_bad (w := false) hc hgood nofun
    apply perform_read_of_busRead
    rw [busRead_of_check hp, hb, readsWhileBusy_eq_false hp h0 h4 h8 hC h14]
    rfl
  · obtain ⟨p, hp⟩ := busCheck_of_not_bad (w := true) hc hgood fun _ => hout
    have hdrop : busWrite s a n v = (s.dropWrite, .okay) := by
      rw [busWrite_of_check v hp, hb, isStatus_eq_false hp h14]; rfl
    refine ⟨s.dropWrite.observe (.write .okay), by rw [perform, hdrop], rfl, ?_, fun k hk => ?_, rfl⟩
    · exact statusBusyErr_onDrop s.status
    · exact statusOnDrop_getLsbD s.status hk

/-! O27 to O29: accesses of one buffer. -/

/-- An access of a byte or an aligned word at an offset of a buffer passes the decode check, but for a write to OUT (R61,
R62). -/
theorem busCheck_bufAddr {s : State} {w : Bool} {b : Buf} {o n : Nat} (hc : s.caps.legal = true)
    (hn : n = 1 ∨ (n = 4 ∧ o % 4 = 0)) (ho : o < s.bufCap b) (hw : w = true → b ≠ .out) :
    busCheck s w (BitVec.ofNat 32 (bufBase b + o)) n = .ok (.buf b o) := by
  have ha := toNat_bufAddr hc ho
  have h := busCheck_buf (w := w) (addr := BitVec.ofNat 32 (bufBase b + o)) hc (ha ▸ bufAddr_aligned hn)
    (by omega) (by omega) hw
  rwa [ha, Nat.add_sub_cancel_left] at h

/-- An accepted write to MSG, KEY or ALPHA stores its lanes (R64). -/
theorem perform_write_buf {s : State} {b : Buf} {o n : Nat} (v : Word) (hc : s.caps.legal = true)
    (hb : s.busy = false) (hout : b ≠ .out) (hn : n = 1 ∨ (n = 4 ∧ o % 4 = 0)) (ho : o < s.bufCap b) :
    perform s (.write (BitVec.ofNat 32 (bufBase b + o)) n v) =
      .next ((s.setBuf b (Memory.writeRange (s.buf b) o (leBytes n v))).observe (.write .okay)) := by
  rw [perform, busWrite_of_check v (busCheck_bufAddr hc hn ho fun _ => hout), hb]
  rfl

/-- A byte covered by a stored word is its lane, any other is as before (R64). -/
theorem read_writeRange_leBytes (m : Memory) (o n j : Nat) (v : Word) :
    Memory.read (Memory.writeRange m o (leBytes n v)) j =
      if o ≤ j ∧ j < o + n then some (v.extractLsb' (8 * (j - o)) 8) else Memory.read m j := by
  rw [Memory.read_writeRange, leBytes_length]
  split
  · rw [leBytes_getElem? n v _ (by omega)]
  · rfl

/-- Settles O27: the write replaces the one buffer by its list with the lanes written into it. -/
theorem bufferWritesStoreTheirLanes : Obligations.BufferWritesStoreTheirLanes := by
  intro s b o n v hc hb hout hn ho
  refine ⟨_, perform_write_buf v hc hb hout hn ho, fun k hk => ?_, fun j hj => ?_, fun c hcb => ?_, ?_, ?_⟩
  · rw [State.observe_buf, State.buf_setBuf, if_pos rfl, read_writeRange_leBytes, if_pos (by omega),
      Nat.add_sub_cancel_left]
  · rw [State.observe_buf, State.buf_setBuf, if_pos rfl, read_writeRange_leBytes, if_neg hj]
  · rw [State.observe_buf, State.buf_setBuf, if_neg hcb]
  · rw [State.observe_log, State.setBuf_log]
  · cases b with
    | out => exact absurd rfl hout
    | msg | key | alpha => rfl

/-- A read of written bytes of MSG, ALPHA or OUT answers their word (R64). -/
theorem busRead_written {s : State} {b : Buf} {o n : Nat} {bs : List Byte} (hc : s.caps.legal = true)
    (hb : s.busy = false) (hk : b ≠ .key) (hn : n = 1 ∨ (n = 4 ∧ o % 4 = 0)) (ho : o < s.bufCap b)
    (hbs : Memory.readRange (s.buf b) o n = some bs) :
    busRead s (BitVec.ofNat 32 (bufBase b + o)) n = some (.read .okay (leWord bs)) := by
  rw [busRead_buf hc hb hn ho, readPlace_buf hk, hbs]; rfl

/-- The one byte at an index. -/
theorem readRange_one {m : Memory} {o : Nat} {x : Byte} (h : Memory.read m o = some x) :
    Memory.readRange m o 1 = some [x] := by
  simp only [Memory.readRange, h]

/-- Settles O28: the bytes read as a range, whose word is the byte or the four bytes put together. -/
theorem bufferReadsReturnTheBytes : Obligations.BufferReadsReturnTheBytes := by
  intro s b o hc hb hk ho
  refine ⟨fun x hx => ?_, fun x0 x1 x2 x3 h4 h0 h1 h2 h3 => ?_⟩
  · rw [← leWord_one]
    exact perform_read_of_busRead (busRead_written hc hb hk (.inl rfl) ho (readRange_one hx))
  · have hbs : Memory.readRange (s.buf b) o 4 = some [x0, x1, x2, x3] := by
      simp only [Memory.readRange, h0, h1, h2, h3]
    rw [← leWord_four]
    exact perform_read_of_busRead (busRead_written hc hb hk (.inr ⟨rfl, h4⟩) ho hbs)

/-- Settles O29: a read of KEY is 0 both locked out and taking its normal effect. -/
theorem keyReadsAsZero : Obligations.KeyReadsAsZero := by
  intro s o n hc hn ho
  refine perform_read_of_busRead (a := BitVec.ofNat 32 (bufBase .key + o)) ?_
  rw [busRead_of_check (busCheck_bufAddr (b := .key) hc hn ho nofun)]
  cases s.busy <;> rfl

/-! O31: accesses of different widths. -/

/-- Lane k of a word of bytes is its byte k (R64). -/
theorem leWord_extractLsb' {bs : List Byte} (hl : bs.length ≤ 4) {k : Nat} (hk : k < bs.length) :
    (leWord bs).extractLsb' (8 * k) 8 = bs[k] := by
  apply BitVec.eq_of_getLsbD_eq
  intro i hi
  rw [BitVec.getLsbD_extractLsb', leWord_getLsbD bs hl k i hk hi]
  simp only [hi, decide_true, Bool.true_and]

/-- Lane k of what a word read of MSG, ALPHA or OUT answers is the byte at offset k (R64). -/
theorem lane_of_busRead {s : State} {b : Buf} {o : Nat} {d : Word} {k : Nat} (hc : s.caps.legal = true)
    (hb : s.busy = false) (hk : b ≠ .key) (ho : o < s.bufCap b) (h4 : o % 4 = 0) (hlt : k < 4)
    (h : busRead s (BitVec.ofNat 32 (bufBase b + o)) 4 = some (.read .okay d)) :
    Memory.read (s.buf b) (o + k) = some (d.extractLsb' (8 * k) 8) := by
  rw [busRead_buf hc hb (.inr ⟨rfl, h4⟩) ho, readPlace_buf hk, Option.map_map] at h
  obtain ⟨bs, hbs, hd⟩ := Option.map_eq_some_iff.mp h
  obtain ⟨hl, hread⟩ := Memory.readRange_eq_some.mp hbs
  cases hd
  rw [hread k hlt, leWord_extractLsb' hl.le (hl ▸ hlt), List.getElem?_eq_getElem]

/-- A buffer's capacity is whole words (R8). -/
theorem bufCap_mod {s : State} (b : Buf) (hc : s.caps.legal = true) : s.bufCap b % 4 = 0 := by
  simp only [Config.Caps.legal, Bool.and_eq_true, decide_eq_true_eq] at hc
  cases b <;> simp only [State.bufCap, Config.alphaCap] <;> omega

/-- The buffers' capacities are those of the configuration (R40). -/
theorem bufCap_congr {s t : State} (h : t.caps = s.caps) (b : Buf) : t.bufCap b = s.bufCap b := by
  cases b <;> simp only [State.bufCap, h]

/-- What an accepted write to MSG, KEY or ALPHA leaves for the next access: the capacities, BUSY = 0, and its lanes. -/
theorem lanes_of_perform_write {s t : State} {b : Buf} {o n : Nat} {v : Word} (hc : s.caps.legal = true)
    (hb : s.busy = false) (hout : b ≠ .out) (hn : n = 1 ∨ (n = 4 ∧ o % 4 = 0)) (ho : o < s.bufCap b)
    (h : perform s (.write (BitVec.ofNat 32 (bufBase b + o)) n v) = .next t) :
    t.caps = s.caps ∧ t.busy = false ∧
      ∀ k, k < n → Memory.read (t.buf b) (o + k) = some (v.extractLsb' (8 * k) 8) := by
  obtain ⟨u, hu, hlanes, -, -, -, hframe⟩ := bufferWritesStoreTheirLanes s b o n v hc hb hout hn ho
  cases hu.symm.trans h
  exact ⟨(congrArg State.caps hframe :), (congrArg State.busy hframe).trans hb, hlanes⟩

/-- Settles O31: both reads see the byte that the write left at their offset. -/
theorem mixedWidthAccessesAgree : Obligations.MixedWidthAccessesAgree := by
  intro s t b o v hc hb hmsg ho
  have hout : b ≠ .out := by rcases hmsg with rfl | rfl <;> decide
  have hkey : b ≠ .key := by rcases hmsg with rfl | rfl <;> decide
  refine ⟨fun h d hd => ?_, fun h4 h k hk => ?_⟩
  · obtain ⟨hcaps, hbt, hlanes⟩ := lanes_of_perform_write hc hb hout (.inl rfl) ho h
    have hbyte : Memory.read (t.buf b) o = some (v.extractLsb' 0 8) := hlanes 0 Nat.one_pos
    have hlane := lane_of_busRead (k := o % 4) (hcaps ▸ hc) hbt hkey (by rw [bufCap_congr hcaps]; omega) (by omega)
      (by omega) hd
    rw [Nat.sub_add_cancel (Nat.mod_le o 4), hbyte] at hlane
    exact (Option.some.inj hlane).symm
  · obtain ⟨hcaps, hbt, hlanes⟩ := lanes_of_perform_write hc hb hout (.inr ⟨rfl, h4⟩) ho h
    have hcap := bufCap_mod b hc
    rw [← leWord_one, Nat.add_assoc]
    exact busRead_written (hcaps ▸ hc) hbt hkey (.inl rfl) (by rw [bufCap_congr hcaps]; omega)
      (readRange_one (hlanes k hk))

/-! O32, O59: reads repeat, and the host's turn. -/

/-- The host's observations change no read's answer. -/
theorem busRead_observe (s : State) (r : Response) (a : Word) (n : Nat) :
    busRead (s.observe r) a n = busRead s a n := by
  have hplace : ∀ p, readPlace (s.observe r) n p = readPlace s n p := by
    intro p
    cases p with
    | reg off => rw [readPlace, readPlace]; cases regAt off <;> rfl
    | buf b off => cases b <;> rfl
  have hcheck : busCheck (s.observe r) false a n = busCheck s false a n := rfl
  simp only [busRead, hcheck, State.observe_busy, hplace]

/-- Settles O32: a read only observes its response, on which no answer depends. -/
theorem readsAreFreeOfSideEffects : Obligations.ReadsAreFreeOfSideEffects := by
  intro s t a n h
  obtain ⟨r, hr, rfl⟩ := perform_read_eq_next.mp h
  exact ⟨r, rfl, perform_read_of_busRead ((busRead_observe s r a n).trans hr)⟩

theorem hostStep_of_txn {s : State} {x : Txn} {rest : List HostLine} (h : s.script = .txn x :: rest) :
    hostStep s = perform { s with script := rest } x := by
  simp only [hostStep, h]

theorem hostStep_of_no_line {s : State} (h : s.script = []) : hostStep s = .next s := by
  simp only [hostStep, h]

/-- Settles O59: the host's turn is hostStep, which reads the first line. -/
theorem hostTurnPerformsTheNextLine : Obligations.HostTurnPerformsTheNextLine := by
  refine fun s => ⟨fun ts hturns => ?_, fun hturns hb => ?_⟩
  · have hstep := step_of_host_turn hturns
    exact ⟨hstep, fun x rest hs => hstep.trans (hostStep_of_txn (s := { s with turns := ts }) hs),
      fun hs => hstep.trans (hostStep_of_no_line (s := { s with turns := ts }) hs)⟩
  · have hstep : step s = hostStep s := by rw [step_of_no_turn hturns, hb, if_neg Bool.false_ne_true]
    exact ⟨hstep, fun x rest hs => hstep.trans (hostStep_of_txn hs), fun hs => hstep.trans (hostStep_of_no_line hs)⟩

end Sys2Proof.Machine
end
section
/-! PROOFS. The encoding family (spec 30_encoding R90 to R100): the command word's fields, the decoder against the encoder,
and the host's poll line. -/

namespace Sys2Proof.Machine

/-! O1: the fields of a command word and the decoder that reads them (R90 to R96). -/

/-- A word is its fields RES, ENC and FUNC, in that order (R90). -/
theorem word_eq_fields (w : Word) : wordRes w ++ wordEnc w ++ wordFunc w = w := by
  have henc : wordRes w ++ wordEnc w = w.extractLsb' 2 30 := BitVec.extractLsb'_append_extractLsb'_eq_extractLsb' rfl
  have hfunc : w.extractLsb' 2 30 ++ wordFunc w = w.extractLsb' 0 32 :=
    BitVec.extractLsb'_append_extractLsb'_eq_extractLsb' rfl
  rw [henc, hfunc, BitVec.extractLsb'_eq_self]

/-- The FUNC the decoder reads is the one with those bits (R91). -/
theorem decodeFunc_eq_some {b : BitVec 2} {f : Func} : decodeFunc b = some f ↔ f.code = b := by
  cases f <;> revert b <;> decide

/-- The one FUNC with no meaning is 0b11 (R94). -/
theorem decodeFunc_eq_none {b : BitVec 2} : decodeFunc b = none ↔ b = 3#2 := by
  revert b; decide

/-- The ENC the decoder reads has the bits it was read from (R92). -/
theorem code_decodeEnc (b : BitVec 2) : (decodeEnc b).code = b := by
  revert b; decide

/-- The word of the command in FUNC's column and ENC's row (R90, R93). -/
theorem encode_instrOf (f : Func) (e : Enc) : encode (instrOf f e) = 0#28 ++ e.code ++ f.code := by
  cases f <;> cases e <;> rfl

/-- Every command's word decodes to it (R93, R96). -/
theorem decode_encode (i : Instr) : decode (encode i) = .ok i := by
  cases i <;> rfl

/-- What the decoder reads from a word with RES = 0 and a FUNC that has a meaning, and that it reads no other (R96). -/
theorem decode_eq_ok {w : Word} {i : Instr} :
    decode w = .ok i ↔
      wordRes w = 0#28 ∧ ∃ f, decodeFunc (wordFunc w) = some f ∧ instrOf f (decodeEnc (wordEnc w)) = i := by
  unfold decode
  by_cases hres : wordRes w = 0#28
  · cases hfunc : decodeFunc (wordFunc w) <;> simp [hres]
  · simp [hres]

/-- A word that decodes to a command is that command's word (R96). -/
theorem encode_of_decode {w : Word} {i : Instr} (h : decode w = .ok i) : encode i = w := by
  obtain ⟨hres, f, hfunc, rfl⟩ := decode_eq_ok.mp h
  rw [encode_instrOf, code_decodeEnc, decodeFunc_eq_some.mp hfunc, ← hres, word_eq_fields]

/-- The legal words: RES is 0 and FUNC is not the reserved value (R96). -/
theorem decode_isOk_iff {w : Word} : (∃ i, decode w = .ok i) ↔ wordRes w = 0#28 ∧ wordFunc w ≠ 3#2 := by
  have hfunc : wordFunc w ≠ 3#2 ↔ ∃ f, decodeFunc (wordFunc w) = some f := by
    rw [← Option.ne_none_iff_exists', ne_eq, ne_eq, decodeFunc_eq_none]
  rw [hfunc]
  constructor
  · rintro ⟨i, hi⟩
    obtain ⟨hres, f, hf, -⟩ := decode_eq_ok.mp hi
    exact ⟨hres, f, hf⟩
  · rintro ⟨hres, f, hf⟩
    exact ⟨_, decode_eq_ok.mpr ⟨hres, f, hf, rfl⟩⟩

/-- Settles O1: the decoder's word is put together again from its fields, and every command's word decodes to it. -/
theorem decodesExactlyTheLegalWords : Obligations.DecodesExactlyTheLegalWords :=
  fun _ => ⟨fun i => ⟨encode_of_decode, fun h => h ▸ decode_encode i⟩, decode_isOk_iff⟩

/-! O2: words of the opcode map and the two kinds of illegal word (R93, R94). -/

theorem decode_of_reservedBits {w : Word} (h : wordRes w ≠ 0#28) : decode w = .error .reservedBits := by
  rw [decode, if_pos h]

theorem decode_of_reservedFunc {w : Word} (hres : wordRes w = 0#28) (h : wordFunc w = 3#2) :
    decode w = .error .reservedFunc := by
  rw [decode, if_neg (not_not_intro hres), decodeFunc_eq_none.mpr h]

/-- Settles O2: the six legal words are encodings, and the illegal ones have a nonzero RES or the reserved FUNC. -/
theorem opcodeMapWordsDecode : Obligations.OpcodeMapWordsDecode :=
  ⟨decode_encode .copy, decode_encode .hmac, decode_encode .sha1Hex, decode_encode .hmacB64, decode_encode .radix,
    decode_encode .sha1Radix, decode_of_reservedFunc (by decide) (by decide), decode_of_reservedFunc (by decide) (by decide),
    decode_of_reservedBits (by decide), decode_of_reservedBits (by decide)⟩

/-! O44: the poll line (R99). -/

/-- A poll ends on an OKAY read whose masked data is V, and on no other response (R99). -/
theorem pollEnds_iff {mask v : Word} {r : Response} :
    pollEnds mask v r = true ↔ ∃ d, r = .read .okay d ∧ d &&& mask = v := by
  cases r with
  | write _ => simp [pollEnds]
  | read resp d => cases resp <;> simp [pollEnds]

theorem hostStep_of_poll {s : State} {addr mask v : Word} {rest : List HostLine} {r : Response}
    (hs : s.script = .poll addr mask v :: rest) (hr : busRead s addr 4 = some r) :
    hostStep s = .next { s.observe r with script := if pollEnds mask v r then rest else s.script } := by
  simp only [hostStep, hs, hr]

/-- Settles O44: the poll's turn observes the read, and pollEnds says whether its line stays. -/
theorem pollRepeatsUntilItMatches : Obligations.PollRepeatsUntilItMatches := by
  intro s addr mask v rest r hs hr
  exact ⟨_, hostStep_of_poll hs hr, fun h => if_pos (pollEnds_iff.mpr h), fun h => if_neg (mt pollEnds_iff.mp h), rfl, rfl⟩

end Sys2Proof.Machine
end

section
/-! PROOFS. The SHA-1 family (spec 40_sha1 R110 to R129): rotation, packing and unpacking, the padded array, the message
schedule, the rounds of a block, and the blocks of a hash. -/

namespace Sys2Proof.Machine

/-! O46: rotation (R111). -/

/-- The left shift gives the bits from n on, and the right shift the n lowest ones. -/
theorem rotl_getLsbD (n : Nat) (x : Word) (i : Nat) (hn : n ≤ 31) (hi : i < 32) :
    (rotl n x).getLsbD i = x.getLsbD ((i + 32 - n) % 32) := by
  rw [rotl, BitVec.getLsbD_or, BitVec.getLsbD_shiftLeft, BitVec.getLsbD_ushiftRight]
  rcases Nat.lt_or_ge i n with h | h
  · rw [show (i + 32 - n) % 32 = 32 - n + i by omega]
    simp [h]
  · rw [show (i + 32 - n) % 32 = i - n by omega, BitVec.getLsbD_of_ge x (32 - n + i) (by omega)]
    simp [hi, Nat.not_lt.mpr h]

/-- Settles O46: the formula is the definition, and the bits are those of the two shifts. -/
theorem rotationMovesBits : Obligations.RotationMovesBits :=
  fun n x i _ hn hi => ⟨rfl, rotl_getLsbD n x i hn hi⟩

/-! O47, O48: packing and unpacking (R112, R113). -/

@[simp] theorem beBytes_beWord (b0 b1 b2 b3 : Byte) : beBytes (beWord b0 b1 b2 b3) = [b0, b1, b2, b3] := by
  simp (disch := decide) only [beBytes, beWord, BitVec.extractLsb'_append_eq_of_le, BitVec.extractLsb'_append_eq_right,
    Nat.reduceSub, BitVec.extractLsb'_eq_self]

/-- Byte k of a word array is the byte of word k div 4 in lane k mod 4 (R113). -/
theorem flatMap_beBytes_getElem? (xs : List Word) (k : Nat) :
    (xs.flatMap beBytes)[k]? = xs[k / 4]?.map fun x => x.extractLsb' (24 - 8 * (k % 4)) 8 := by
  induction xs generalizing k with
  | nil => rfl
  | cons x xs ih =>
    match k with
    | 0 | 1 | 2 | 3 => rfl
    | k + 4 =>
      rw [show (k + 4) / 4 = k / 4 + 1 by omega, Nat.add_mod_right]
      exact ih k

/-- The lane of word k div 4 is 0 where the array has no such word. -/
theorem flatMap_beBytes_getD (xs : List Word) (k : Nat) :
    (xs.flatMap beBytes).getD k 0#8 = (xs.getD (k / 4) 0#32).extractLsb' (24 - 8 * (k % 4)) 8 := by
  rw [List.getD_eq_getElem?_getD, List.getD_eq_getElem?_getD, flatMap_beBytes_getElem?]
  cases xs[k / 4]? with
  | none => simp
  | some x => rfl

/-- The bytes of a packed string are the string and the zero fill of the last word (R112). -/
theorem flatMap_beBytes_packBE (bs : List Byte) : ∃ n, (packBE bs).flatMap beBytes = bs ++ List.replicate n 0#8 := by
  match bs with
  | [] => exact ⟨0, rfl⟩
  | [b0] => exact ⟨3, by simp [packBE, List.replicate]⟩
  | [b0, b1] => exact ⟨2, by simp [packBE, List.replicate]⟩
  | [b0, b1, b2] => exact ⟨1, by simp [packBE]⟩
  | b0 :: b1 :: b2 :: b3 :: rest =>
    obtain ⟨n, hn⟩ := flatMap_beBytes_packBE rest
    exact ⟨n, by simp [packBE, hn]⟩

/-- The bytes of a packed string, with 0 beyond its end, are the string's. -/
theorem packBE_lane (bs : List Byte) (i : Nat) :
    ((packBE bs).getD (i / 4) 0#32).extractLsb' (24 - 8 * (i % 4)) 8 = bs.getD i 0#8 := by
  obtain ⟨n, hn⟩ := flatMap_beBytes_packBE bs
  rw [← flatMap_beBytes_getD, hn]
  rcases Nat.lt_or_ge i bs.length with h | h
  · exact List.getD_append _ _ _ _ h
  · rw [List.getD_append_right _ _ _ _ h, List.getD_eq_default _ _ h]
    exact List.getElem?_getD_replicate_default_eq _ _ _

/-- Settles O47: every lane of the packed words holds the string's byte, or 0 beyond its end. -/
theorem packingIsBigEndian : Obligations.PackingIsBigEndian := fun bs =>
  ⟨packBE_length bs, fun i _ => packBE_lane bs i,
    fun i hi _ => (packBE_lane bs i).trans (List.getD_eq_default _ _ hi)⟩

theorem unpackBE_length (xs : List Word) (m : Nat) (h : m ≤ 4 * xs.length) : (unpackBE xs m).length = m := by
  rw [unpackBE, List.length_take, flatMap_beBytes_length, Nat.min_eq_left h]

theorem unpackBE_getElem? (xs : List Word) {m k : Nat} (hm : m ≤ 4 * xs.length) (hk : k < m) :
    (unpackBE xs m)[k]? = some ((xs.getD (k / 4) 0#32).extractLsb' (24 - 8 * (k % 4)) 8) := by
  have hw : k / 4 < xs.length := by omega
  rw [unpackBE, List.getElem?_take_of_lt hk, flatMap_beBytes_getElem?, List.getElem?_eq_getElem hw,
    List.getD_eq_getElem _ _ hw, Option.map_some]

theorem unpackBE_packBE (bs : List Byte) : unpackBE (packBE bs) bs.length = bs := by
  obtain ⟨n, hn⟩ := flatMap_beBytes_packBE bs
  rw [unpackBE, hn, List.take_left']
  rfl

/-- Settles O48: each byte is read in its lane, and the string's bytes come before the zero fill. -/
theorem unpackingInvertsPacking : Obligations.UnpackingInvertsPacking :=
  ⟨fun xs m hm => ⟨unpackBE_length xs m hm, fun _ hk => unpackBE_getElem? xs hm hk⟩, unpackBE_packBE⟩

/-! O49: the padded array (R114 to R116). -/

/-- N is the least n with 512n ≥ L + 65 (R114). -/
theorem blockCount_le_iff {len n : Nat} : blockCount len ≤ n ↔ len + 65 ≤ 512 * n := by
  unfold blockCount; omega

/-- The last word of the padded array is the length, cut to 32 bits (R116). -/
theorem padWords_getElem?_last {xs : List Word} {len : Nat} (h : xs.length ≤ 16 * blockCount len) :
    (padWords xs len)[16 * blockCount len - 1]? = some (BitVec.ofNat 32 (len % 2 ^ 32)) := by
  have hn : 0 < blockCount len := Nat.succ_pos _
  have hcut : BitVec.ofNat 32 len = BitVec.ofNat 32 (len % 2 ^ 32) := BitVec.eq_of_toNat_eq (Nat.mod_mod _ _).symm
  rw [padWords, ← hcut]
  exact List.getElem?_set_self (by simp; omega)

/-- The word before the last is 0 (R116). -/
theorem padWords_getElem?_high {xs : List Word} {len : Nat} (h : xs.length ≤ 16 * blockCount len) :
    (padWords xs len)[16 * blockCount len - 2]? = some 0#32 := by
  have hn : 0 < blockCount len := Nat.succ_pos _
  rw [padWords, List.getElem?_set_ne (by omega), List.getElem?_set_self (by simp; omega)]

/-- Before the two length words the padded array is X followed by zeros, with the 1 bit or-ed in at L (R115). -/
theorem padWords_getElem?_of_lt {xs : List Word} {len k : Nat} (hk : k < 16 * blockCount len - 2) :
    (padWords xs len)[k]? =
      some (if len / 32 = k then xs.getD k 0#32 ||| (1#32 <<< (31 - len % 32)) else xs.getD k 0#32) := by
  have hz : (xs ++ List.replicate (16 * blockCount len - xs.length) 0#32)[k]? = some (xs.getD k 0#32) := by
    rcases Nat.lt_or_ge k xs.length with h | h
    · rw [List.getElem?_append_left h, List.getElem?_eq_getElem h, List.getD_eq_getElem _ _ h]
    · rw [List.getElem?_append_right h, List.getElem?_replicate_of_lt (by omega), List.getD_eq_default _ _ h]
  rw [padWords, List.getElem?_set_ne (by omega), List.getElem?_set_ne (by omega), List.getElem?_modify, hz]
  split <;> rfl

/-- Settles O49: the words before the two length words are those of X and the zeros, and the last two are the length. -/
theorem paddedArrayIsAsSpecified : Obligations.PaddedArrayIsAsSpecified := by
  intro xs len hxs
  have hN : len + 65 ≤ 512 * blockCount len := blockCount_le_iff.mp le_rfl
  have hlen : xs.length ≤ 16 * blockCount len := by omega
  refine ⟨hN, fun n => blockCount_le_iff.mpr, padWords_length xs len hlen, fun k hk hne => ?_, ?_,
    fun k hk hne hlt => ?_, padWords_getElem?_high hlen, ?_⟩
  · rw [padWords_getElem?_of_lt (by omega), if_neg hne.symm, List.getD_eq_getElem _ _ hk, List.getElem?_eq_getElem hk]
  · rw [padWords_getElem?_of_lt (by omega), if_pos rfl]
  · rcases Nat.lt_or_ge k (16 * blockCount len - 2) with h | h
    · rw [padWords_getElem?_of_lt h, if_neg hne.symm, List.getD_eq_default _ _ hk]
    · rw [show k = 16 * blockCount len - 2 by omega, padWords_getElem?_high hlen]
  · exact padWords_getElem?_last hlen

/-! O50: the message schedule (R118). -/

theorem scheduleGrow_length (n : Nat) (ws : List Word) : (scheduleGrow n ws).length = n + ws.length := by
  induction n generalizing ws with
  | zero => simp [scheduleGrow]
  | succ n ih => rw [scheduleGrow, ih, List.length_cons]; omega

theorem scheduleGrow_add (m n : Nat) (ws : List Word) :
    scheduleGrow (m + n) ws = scheduleGrow n (scheduleGrow m ws) := by
  induction m generalizing ws with
  | zero => rw [Nat.zero_add, scheduleGrow]
  | succ m ih => rw [Nat.succ_add, scheduleGrow, ih, scheduleGrow]

/-- Growing a schedule leaves the words it has. -/
theorem suffix_scheduleGrow (n : Nat) (ws : List Word) : ws <:+ scheduleGrow n ws := by
  induction n generalizing ws with
  | zero => exact List.suffix_rfl
  | succ n ih => exact (List.suffix_cons _ ws).trans (ih _)

/-- The schedule begins with what has been grown after m words, oldest first, and the word made from it. -/
theorem schedule_eq_append (blk : List Word) {m : Nat} (hm : m < 64) :
    ∃ later, schedule blk =
      (scheduleGrow m blk.reverse).reverse ++ scheduleNext (scheduleGrow m blk.reverse) :: later := by
  obtain ⟨newer, h⟩ := suffix_scheduleGrow (63 - m)
    (scheduleNext (scheduleGrow m blk.reverse) :: scheduleGrow m blk.reverse)
  refine ⟨newer.reverse, ?_⟩
  rw [schedule, show 64 = m + (63 - m + 1) by omega, scheduleGrow_add, scheduleGrow, ← h]
  simp

theorem schedule_length (blk : List Word) : (schedule blk).length = 64 + blk.length := by
  rw [schedule, List.length_reverse, scheduleGrow_length, List.length_reverse]

/-- The schedule begins with the block (R118). -/
theorem schedule_getElem?_of_lt {blk : List Word} {t : Nat} (ht : t < blk.length) :
    (schedule blk)[t]? = blk[t]? := by
  obtain ⟨later, h⟩ := schedule_eq_append blk (m := 0) (by omega)
  rw [h, scheduleGrow, List.reverse_reverse, List.getElem?_append_left ht]

/-- A word of the schedule under construction, counted from the newest, is the schedule's, counted from the oldest. -/
theorem scheduleGrow_getD {blk : List Word} {m i : Nat} (hm : m < 64) (hi : i < m + blk.length) :
    (scheduleGrow m blk.reverse).getD i 0#32 = (schedule blk).getD (m + blk.length - 1 - i) 0#32 := by
  obtain ⟨later, h⟩ := schedule_eq_append blk hm
  have hl : (scheduleGrow m blk.reverse).length = m + blk.length := by rw [scheduleGrow_length, List.length_reverse]
  rw [h, List.getD_append _ _ _ _ (by rw [List.length_reverse, hl]; omega), List.getD_reverse _ (by omega), hl]
  congr 1
  omega

/-- Word m + |blk| of the schedule is made from the words before it. -/
theorem schedule_getElem?_next {blk : List Word} {m : Nat} (hm : m < 64) :
    (schedule blk)[m + blk.length]? = some (scheduleNext (scheduleGrow m blk.reverse)) := by
  obtain ⟨later, h⟩ := schedule_eq_append blk hm
  rw [h, List.getElem?_append_right (by simp [scheduleGrow_length])]
  simp [scheduleGrow_length]

/-- Settles O50: word t is the next word of the schedule grown by t - 16 words, whose words 2, 7, 13 and 15 from the
newest are the words t - 3, t - 8, t - 14 and t - 16. -/
theorem scheduleFollowsTheRecurrence : Obligations.ScheduleFollowsTheRecurrence := by
  intro blk hblk
  refine ⟨by rw [schedule_length, hblk], fun t ht => schedule_getElem?_of_lt (hblk ▸ ht), fun t h16 h80 => ?_⟩
  obtain ⟨m, rfl⟩ := Nat.exists_eq_add_of_le' h16
  have hm : m < 64 := by omega
  have hword (i : Nat) (hi : i < 16) :
      (scheduleGrow m blk.reverse).getD i 0#32 = (schedule blk).getD (m + 16 - (i + 1)) 0#32 := by
    rw [scheduleGrow_getD hm (by omega), hblk, Nat.sub_sub, Nat.add_comm 1]
  have hnext := schedule_getElem?_next (blk := blk) hm
  rw [hblk] at hnext
  rw [hnext, scheduleNext, hword 2 (by decide), hword 7 (by decide), hword 13 (by decide), hword 15 (by decide)]

/-! O51: the rounds of a block (R119 to R124). -/

/-- The rounds of two runs of schedule words, one after the other. -/
theorem runRounds_append (t : Nat) (ws vs : List Word) (r : WorkRegs) :
    runRounds t (ws ++ vs) r = runRounds (t + ws.length) vs (runRounds t ws r) := by
  induction ws generalizing t r with
  | nil => rfl
  | cons w ws ih =>
    rw [List.cons_append, runRounds, ih, runRounds, List.length_cons, Nat.add_assoc, Nat.add_comm 1]

/-- One round more reads the next word of the schedule (R123). -/
theorem runRounds_take_succ {ws : List Word} {t : Nat} (ht : t < ws.length) (r : WorkRegs) :
    runRounds 0 (ws.take (t + 1)) r = roundStep t (ws.getD t 0#32) (runRounds 0 (ws.take t) r) := by
  rw [List.take_succ_eq_append_getElem ht, runRounds_append, List.length_take_of_le (by omega), Nat.zero_add,
    List.getD_eq_getElem _ _ ht]
  rfl

/-- Settles O51: the registers before round t are those after the rounds of the schedule's first t words. -/
theorem compressionIsEightyRounds : Obligations.CompressionIsEightyRounds := by
  intro h blk hblk
  have hlen : (schedule blk).length = 80 := by rw [schedule_length, hblk]
  refine ⟨fun t => runRounds 0 ((schedule blk).take t) (loadWork h), rfl,
    fun t ht => runRounds_take_succ (by omega) _, ?_⟩
  change compress h blk = accumulate h (runRounds 0 ((schedule blk).take 80) (loadWork h))
  rw [compress, List.take_of_length_le hlen.le]

/-! O52: the blocks of a hash (R117, R126). -/

/-- One block more is compressed after the n before it (R126). -/
theorem compressBlocks_succ (n : Nat) (h : Digest) (ys : List Word) :
    compressBlocks (n + 1) h ys = compress (compressBlocks n h ys) ((ys.drop (16 * n)).take 16) := by
  induction n generalizing h ys with
  | zero => rfl
  | succ n ih =>
    rw [compressBlocks, ih, List.drop_drop, compressBlocks, Nat.mul_succ, Nat.add_comm 16]

/-- Settles O52: the accumulators before block j are those after the first j blocks. -/
theorem sha1CompressesTheBlocksInOrder : Obligations.Sha1CompressesTheBlocksInOrder :=
  ⟨fun xs len => ⟨fun j => compressBlocks j sha1Init (padWords xs len), rfl, fun _ _ => compressBlocks_succ _ _ _, rfl⟩,
    fun _ => rfl⟩

end Sys2Proof.Machine
end

section
/-! PROOFS. The HMAC family (spec 41_hmac R160 to R165): the hash of a block followed by a message, in the engine's word form
and in byte form. -/

namespace Sys2Proof.Machine

/-! O53: HMAC in byte form. -/

/-- A word is the word of its four bytes (R112, R113). -/
theorem beWord_extractLsb' (x : Word) :
    beWord (x.extractLsb' 24 8) (x.extractLsb' 16 8) (x.extractLsb' 8 8) (x.extractLsb' 0 8) = x := by
  have h16 : x.extractLsb' 24 8 ++ x.extractLsb' 16 8 = x.extractLsb' 16 16 :=
    BitVec.extractLsb'_append_extractLsb'_eq_extractLsb' rfl
  have h24 : x.extractLsb' 16 16 ++ x.extractLsb' 8 8 = x.extractLsb' 8 24 :=
    BitVec.extractLsb'_append_extractLsb'_eq_extractLsb' rfl
  have h32 : x.extractLsb' 8 24 ++ x.extractLsb' 0 8 = x.extractLsb' 0 32 :=
    BitVec.extractLsb'_append_extractLsb'_eq_extractLsb' rfl
  rw [beWord, h16, h24, h32, BitVec.extractLsb'_eq_self]

/-- Packing the bytes of words gives the words back. -/
theorem packBE_flatMap_beBytes (xs : List Word) : packBE (xs.flatMap beBytes) = xs := by
  induction xs with
  | nil => rfl
  | cons x xs ih => exact congrArg₂ List.cons (beWord_extractLsb' x) ih

/-- The 20 bytes of a digest pack to its five words, so R164 may append the words themselves. -/
theorem packBE_digestBytes (h : Digest) : packBE (digestBytes h) = digestWords h :=
  packBE_flatMap_beBytes (digestWords h)

/-- A hash whose first block is 64 bytes of its own is the hash of the two word arrays joined (R163, R164). -/
theorem sha1Digest_block_append {pad : List Byte} (hpad : pad.length = 64) (m : List Byte) :
    sha1Digest (pad ++ m) = sha1Words (packBE pad ++ packBE m) (512 + 8 * m.length) := by
  rw [sha1Digest, packBE_append_of_dvd pad m (by omega), List.length_append, hpad, Nat.mul_add]

/-- K1 fits in a block: a key longer than 64 bytes is replaced by its 20 digest bytes (R160, R161). -/
theorem compressKey_length_le (k : List Byte) : (compressKey k).length ≤ 64 := by
  unfold compressKey
  split
  next => rw [digestBytes_length]; decide
  next h => exact Nat.not_lt.mp h

/-- K0 is one block (R161). -/
theorem padKey_length (k : List Byte) : (padKey k).length = 64 := by
  rw [padKey, List.length_append, List.length_replicate, Nat.add_sub_cancel' (compressKey_length_le k)]

theorem innerPad_length (k : List Byte) : (innerPad k).length = 64 := by rw [innerPad, List.length_map, padKey_length]

theorem outerPad_length (k : List Byte) : (outerPad k).length = 64 := by rw [outerPad, List.length_map, padKey_length]

/-- The inner pass (R163). -/
theorem innerHash_eq_sha1Digest (k m : List Byte) : innerHash k m = sha1Digest (innerPad k ++ m) :=
  (sha1Digest_block_append (innerPad_length k) m).symm

/-- The outer pass (R164). -/
theorem hmacSha1_eq_sha1Digest (k m : List Byte) :
    hmacSha1 k m = sha1Digest (outerPad k ++ digestBytes (innerHash k m)) := by
  rw [sha1Digest_block_append (outerPad_length k), packBE_digestBytes, digestBytes_length, hmacSha1]

/-- Settles O53: both pads are one block, so each pass hashes its pad and its message as one byte string. -/
theorem hmacIsTwoPasses : Obligations.HmacIsTwoPasses := fun k m =>
  ⟨padKey_length k, by rw [hmacSha1_eq_sha1Digest, innerHash_eq_sha1Digest]; rfl⟩

end Sys2Proof.Machine
end

section
/-! PROOFS. The encoder family (spec 42_encoders R180 to R193): the digits of HEX, the groups of B64, the length and the
numeral of RADIX, and EncLen. -/

namespace Sys2Proof.Machine

/-! O54: HEX (R182). -/

/-- In a concatenation of blocks of one length, item `n * i + j` is item `j` of block `i`. -/
theorem flatMap_getElem?_of_length {α β : Type} {f : α → List β} {n : Nat} (hf : ∀ x, (f x).length = n) (xs : List α)
    (i : Nat) {j : Nat} (hj : j < n) : (xs.flatMap f)[n * i + j]? = xs[i]?.bind fun x => (f x)[j]? := by
  induction xs generalizing i with
  | nil => rfl
  | cons x xs ih =>
    cases i with
    | zero =>
      rw [Nat.mul_zero, Nat.zero_add, List.flatMap_cons, List.getElem?_append_left (by rwa [hf])]
      rfl
    | succ i =>
      rw [List.flatMap_cons, List.getElem?_append_right (by rw [hf, Nat.mul_succ]; omega), hf,
        show n * (i + 1) + j - n = n * i + j by rw [Nat.mul_succ]; omega, ih, List.getElem?_cons_succ]

/-- The table of digits in R180's codes. -/
def hexTable (upper : Bool) : List Byte :=
  [0x30#8, 0x31#8, 0x32#8, 0x33#8, 0x34#8, 0x35#8, 0x36#8, 0x37#8, 0x38#8, 0x39#8] ++
  (if upper then [0x41#8, 0x42#8, 0x43#8, 0x44#8, 0x45#8, 0x46#8]
   else [0x61#8, 0x62#8, 0x63#8, 0x64#8, 0x65#8, 0x66#8])

/-- The digit the encoder computes is the table's. -/
theorem hexTable_getElem? : ∀ (upper : Bool), ∀ n < 16, (hexTable upper)[n]? = some (hexDigit upper n) := by
  decide

/-- The two digits of byte i (R182). -/
theorem hexEnc_getElem? (s : List Byte) (upper : Bool) {i j : Nat} (hi : i < s.length) (hj : j < 2) :
    (hexEnc s upper)[2 * i + j]? =
      [hexDigit upper ((s.getD i 0#8).toNat / 16), hexDigit upper ((s.getD i 0#8).toNat % 16)][j]? := by
  rw [hexEnc, flatMap_getElem?_of_length (n := 2) (fun _ => rfl) s i hj, List.getElem?_eq_getElem hi,
    List.getD_eq_getElem _ _ hi]
  rfl

/-- Settles O54: both nibbles of a byte are below 16, where the digits are the table's. -/
theorem hexWritesTwoDigitsPerByte : Obligations.HexWritesTwoDigitsPerByte := by
  intro s upper
  refine ⟨hexEnc_length s upper, fun i hi => ?_⟩
  have hbyte : (s.getD i 0#8).toNat < 256 := (s.getD i 0#8).isLt
  constructor
  · exact (hexEnc_getElem? s upper hi (j := 0) (by decide)).trans (hexTable_getElem? upper _ (by omega)).symm
  · exact (hexEnc_getElem? s upper hi (j := 1) (by decide)).trans (hexTable_getElem? upper _ (by omega)).symm

/-! O55: B64 (R184 to R187). -/

/-- The bytes of a group side by side (R185). -/
theorem b64Triplet_eq_or (s : List Byte) (i : Nat) :
    b64Triplet s i =
      ((s.getD i 0#8).toNat <<< 16) ||| ((s.getD (i + 1) 0#8).toNat <<< 8) ||| (s.getD (i + 2) 0#8).toNat := by
  have h1 : (s.getD (i + 1) 0#8).toNat < 256 := (s.getD (i + 1) 0#8).isLt
  have h2 : (s.getD (i + 2) 0#8).toNat < 2 ^ 8 := (s.getD (i + 2) 0#8).isLt
  have hlow : (s.getD (i + 1) 0#8).toNat <<< 8 + (s.getD (i + 2) 0#8).toNat < 2 ^ 16 := by
    rw [Nat.shiftLeft_eq]; omega
  rw [Nat.or_assoc, ← Nat.shiftLeft_add_eq_or_of_lt h2, ← Nat.shiftLeft_add_eq_or_of_lt hlow, ← Nat.add_assoc,
    Nat.shiftLeft_eq, Nat.shiftLeft_eq]
  rfl

/-- Six bits of a number, by division and by shift and mask. -/
theorem div_mod_64_eq_shiftRight_and (x k : Nat) : x / 2 ^ k % 64 = x >>> k &&& 0x3F := by
  rw [Nat.shiftRight_eq_div_pow, Nat.and_two_pow_sub_one_eq_mod _ 6]

/-- Position j of group g (R185). -/
theorem b64Enc_getElem? (s : List Byte) (pad : Byte) {g j : Nat} (hg : g < (s.length + 2) / 3) (hj : j < 4) :
    (b64Enc s pad)[4 * g + j]? = some (b64Char s pad g j) := by
  rw [b64Enc, flatMap_getElem?_of_length (n := 4) (fun _ => rfl) _ g hj, List.getElem?_range hg]
  match j with
  | 0 | 1 | 2 | 3 => rfl

/-- The symbols' codes (R184). -/
theorem b64Symbol_toNat {n : Nat} (hn : n < 64) : (b64Symbol n).toNat =
    (if n < 26 then 0x41 + n else if n < 52 then 0x61 + (n - 26) else if n < 62 then 0x30 + (n - 52)
     else if n = 62 then 0x2B else 0x2F) := by
  unfold b64Symbol
  split_ifs
  · exact Nat.mod_eq_of_lt (by omega)
  · exact Nat.mod_eq_of_lt (by omega)
  · exact Nat.mod_eq_of_lt (by omega)
  · rfl
  · rfl

/-- Settles O55: position by position; a group before the last has all its three bytes. -/
theorem base64WritesGroupsOfFour : Obligations.Base64WritesGroupsOfFour := by
  intro s pad
  refine ⟨b64Enc_length s pad, fun g j hg hj => ?_, fun g j hg hj => by omega, fun n => b64Symbol_toNat⟩
  rw [b64Enc_getElem? s pad hg hj, b64Char, div_mod_64_eq_shiftRight_and, b64Triplet_eq_or]

/-! O56: FullLen (R189). -/

/-- An exponent that reaches 2^(8n) is no less than FullLen (R189). -/
theorem fullLen_le_of_le_pow {n r m : Nat} (hr : 2 ≤ r) (h : 2 ^ (8 * n) ≤ r ^ m) : fullLen n r ≤ m := by
  by_contra hlt
  have hfuel : 2 ^ (8 * n) ≤ r ^ (0 + 8 * n) := by rw [Nat.zero_add]; exact Nat.pow_le_pow_left hr _
  obtain ⟨-, hleast⟩ := fullLenFrom_spec r _ _ 0 hfuel (by omega)
  exact absurd h (Nat.not_le.mpr (hleast m (Nat.not_le.mp hlt)))

/-- Settles O56: the search ends at a sufficient exponent, and the exponents it passed are too small. -/
theorem fullLenIsLeast : Obligations.FullLenIsLeast :=
  fun n r hr => ⟨le_pow_fullLen n r hr, fun _ => fullLen_le_of_le_pow hr⟩

/-! O57: RADIX (R188 to R192). -/

/-- A numeral read from its most significant digit is the numeral of its reversed digits. -/
theorem foldl_eq_ofDigits_reverse (r : Nat) (ds : List Nat) :
    ds.foldl (fun v d => v * r + d) 0 = Nat.ofDigits r ds.reverse := by
  rw [Nat.ofDigits_eq_foldr, List.foldr_reverse]
  simp only [Nat.cast_id, Nat.add_comm, Nat.mul_comm]

/-- V is the sum of the bytes by their weights (R188). -/
theorem radixValue_eq_sum (s : List Byte) :
    radixValue s = ∑ i ∈ Finset.range s.length, (s.getD i 0#8).toNat * 256 ^ (s.length - 1 - i) := by
  induction s using List.reverseRecOn with
  | nil => rfl
  | append_singleton s b ih =>
    have hlast : (s ++ [b]).getD s.length 0#8 = b := by simp
    have hinit (i : Nat) (hi : i ∈ Finset.range s.length) :
        ((s ++ [b]).getD i 0#8).toNat * 256 ^ (s.length - i) =
          (s.getD i 0#8).toNat * 256 ^ (s.length - 1 - i) * 256 := by
      have hlt : i < s.length := Finset.mem_range.mp hi
      rw [List.getD_append _ _ _ _ hlt, Nat.mul_assoc, ← Nat.pow_succ, Nat.succ_eq_add_one,
        show s.length - 1 - i + 1 = s.length - i by omega]
    calc radixValue (s ++ [b])
      _ = radixValue s * 256 + b.toNat := by rw [radixValue, List.foldl_append]; rfl
      _ = _ := by
        rw [ih, List.length_append, List.length_singleton, Finset.sum_range_succ, Nat.add_sub_cancel, hlast,
          Nat.sub_self, Nat.pow_zero, Nat.mul_one, Finset.sum_congr rfl hinit, Finset.sum_mul]

/-- The digits of R190, most significant first, with the zeros that pad them to FullLen. -/
def paddedDigits (s : List Byte) (r : Nat) : List Nat :=
  let digits := radixDigits r (8 * s.length) (radixValue s)
  List.replicate (fullLen s.length r - digits.length) 0 ++ digits.reverse

/-- The output is the padded digits in symbols: the padding A[0] is the symbol of the digit 0 (R190). -/
theorem radixEnc_eq_map_paddedDigits (s a : List Byte) :
    radixEnc s a = (paddedDigits s a.length).map fun d => a.getD d 0#8 := by
  simp only [radixEnc, paddedDigits, List.map_append, List.map_replicate, List.length_map, List.length_reverse]

/-- The padded digits are digits. -/
theorem lt_of_mem_paddedDigits {s : List Byte} {r d : Nat} (hr : 2 ≤ r) (hd : d ∈ paddedDigits s r) : d < r := by
  rcases List.mem_append.mp hd with hzero | hdigit
  · rw [List.eq_of_mem_replicate hzero]; omega
  · exact (radixDigits_spec r hr _ _ (radixValue_lt s)).1 d (List.mem_reverse.mp hdigit)

/-- The padded digits are the base-r numeral of V; the zeros in front do not count. -/
theorem foldl_paddedDigits (s : List Byte) {r : Nat} (hr : 2 ≤ r) :
    (paddedDigits s r).foldl (fun v d => v * r + d) 0 = radixValue s := by
  rw [foldl_eq_ofDigits_reverse, paddedDigits, List.reverse_append, List.reverse_reverse, List.reverse_replicate,
    Nat.ofDigits_append_replicate_zero]
  exact (radixDigits_spec r hr _ _ (radixValue_lt s)).2

/-- Settles O57: the digits are those of R190 with the zeros that pad them. -/
theorem radixWritesThePositionalNumeral : Obligations.RadixWritesThePositionalNumeral := by
  intro s a ha _
  have henc := radixEnc_eq_map_paddedDigits s a
  refine ⟨paddedDigits s a.length, ?_, fun _ => lt_of_mem_paddedDigits ha, ?_, henc⟩
  · rw [← radixEnc_length s a ha, henc, List.length_map]
  · rw [foldl_paddedDigits s ha, radixValue_eq_sum]

/-! O58: EncLen (R193). -/

/-- Settles O58: the encoders' lengths are EncLen, and a digest needs at most 8 * 20 symbols. -/
theorem encLenIsTheOutputLength : Obligations.EncLenIsTheOutputLength :=
  ⟨encodeOut_length, fun _ r => ⟨rfl, rfl, rfl, rfl, fullLen_le 20 r⟩⟩

end Sys2Proof.Machine
end
section
/-! PROOFS. The command family (spec 43_commands R210 to R226): which command a step completes, each command's errors
and result, and that a result depends on the operands alone. -/

namespace Sys2Proof.Machine

/-! O3: the step that completes the latched command (R210). -/

/-- While BUSY = 1 the engine's turn is the completion step (R210). -/
theorem engineTurn_of_busy {s : State} (hb : s.busy = true) : engineTurn s = completionStep s := by
  rw [engineTurn, if_pos hb]

/-- The completion step of a legal word is its command's meaning (R46, R210). -/
theorem completionStep_of_decode {s : State} {i : Instr} (h : decode s.operands.cmd = .ok i) :
    completionStep s = exec i s := by
  simp only [completionStep, h]

/-- Settles O3: the engine acts where its turn stands first or none is listed, and it is busy. -/
theorem stepRunsTheLatchedCommand : Obligations.StepRunsTheLatchedCommand := by
  intro s hb
  have hnone (hts : s.turns = []) : step s = completionStep s := by rw [step_of_no_turn hts, if_pos hb]
  have hengine (ts : List Turn) (hts : s.turns = .engine :: ts) : step s = completionStep { s with turns := ts } := by
    rw [step_of_engine_turn hts, engineTurn_of_busy (s := { s with turns := ts }) hb]
  refine ⟨hnone, hengine, fun i hi => ⟨fun hts => ?_, fun ts hts => ?_⟩⟩
  · rw [hnone hts, completionStep_of_decode hi]
  · rw [hengine ts hts, completionStep_of_decode (s := { s with turns := ts }) hi]

/-! Which errors a command can raise (R243 to R247). -/

/-- FUNC = NONE has no key to check, and its source is the message (R211). -/
theorem raises_iff_of_none {i : Instr} (hf : funcOf i = .none) {s : State} {e : CmdError} :
    Raises i s e ↔
      (e = .msgRange ∧ s.caps.msgCap < s.msgCount) ∨
      (e = .alphaRange ∧ s.msgCount ≤ s.caps.msgCap ∧ encOf i = .radix ∧ (s.radix < 2 ∨ 256 < s.radix)) ∨
      (e = .outRange ∧ s.msgCount ≤ s.caps.msgCap ∧ (encOf i = .radix → 2 ≤ s.radix ∧ s.radix ≤ 256) ∧
        s.caps.outCap < encLen (encOf i) s.msgCount s.radix) := by
  rw [raises_iff_rangeError, rangeError_eq_some, hf]
  simp [sourceLen]

/-- A digest's output fits in every legal OUT (R8, R193). -/
theorem encLen_digest_le_outCap {c : Config.Caps} (hc : c.legal = true) {f : Func} (hf : f ≠ .none) (e : Enc)
    (n r : Nat) : encLen e (sourceLen f n) r ≤ c.outCap := by
  have hsource : sourceLen f n = 20 := by
    cases f with
    | none => exact absurd rfl hf
    | sha1 | hmac => rfl
  rw [hsource]
  exact (encLen_digest_le e r).trans (outCap_of_legal hc)

/-- A command that encodes a digest never raises OUT_RANGE where the capacities are legal (R246). -/
theorem raises_iff_of_digest {i : Instr} (hf : funcOf i ≠ .none) {s : State} (hc : s.caps.legal = true) {e : CmdError} :
    Raises i s e ↔
      (e = .msgRange ∧ s.caps.msgCap < s.msgCount) ∨
      (e = .keyRange ∧ s.msgCount ≤ s.caps.msgCap ∧ funcOf i = .hmac ∧ s.caps.keyCap < s.keyCount) ∨
      (e = .alphaRange ∧ s.msgCount ≤ s.caps.msgCap ∧ (funcOf i = .hmac → s.keyCount ≤ s.caps.keyCap) ∧
        encOf i = .radix ∧ (s.radix < 2 ∨ 256 < s.radix)) := by
  have hfit := encLen_digest_le_outCap hc hf (encOf i) s.msgCount s.radix
  rw [raises_iff_rangeError, rangeError_eq_some]
  simp only [hfit.not_gt, and_false, or_false]

/-! The result of a command (R210, R225). -/

/-- The bytes a command consumes: MSG[0..n) is m, KEY[0..k) is k for HMAC and ALPHA[0..r) is a for RADIX, all written
(R95, R255) and each count in its range (R243 to R245). -/
structure Consumes (i : Instr) (s : State) (m k a : List Byte) : Prop where
  msg : m.length = s.msgCount ∧ Holds s.msg m ∧ m.length ≤ s.caps.msgCap
  key : funcOf i = .hmac → k.length = s.keyCount ∧ Holds s.key k ∧ k.length ≤ s.caps.keyCap
  alpha : encOf i = .radix → a.length = s.radix ∧ Holds s.alpha a ∧ 2 ≤ a.length ∧ a.length ≤ 256

/-- Where the operands are in range and the output fits, every check passes (R247). -/
theorem Consumes.checks_pass {i : Instr} {s : State} {m k a : List Byte} (h : Consumes i s m k a)
    (hout : encLen (encOf i) (sourceLen (funcOf i) m.length) a.length ≤ s.caps.outCap) :
    s.rangeError (funcOf i) (encOf i) = none := by
  obtain ⟨⟨hml, -, hmcap⟩, hkey, halpha⟩ := h
  refine rangeError_eq_none.mpr ⟨hml ▸ hmcap, fun hf => ?_, fun he => ?_, ?_⟩
  · obtain ⟨hkl, -, hkcap⟩ := hkey hf
    exact hkl ▸ hkcap
  · obtain ⟨hal, -, ha⟩ := halpha he
    exact hal ▸ ha
  · rwa [← hml, encLen_congr fun he => (halpha he).1.symm]

/-- Only HMAC's source looks at the key (R211), and k is it. -/
theorem Consumes.exists_keyBytes {i : Instr} {s : State} {m k a : List Byte} (h : Consumes i s m k a) :
    ∃ k', s.keyBytes (funcOf i) = some k' ∧ source (funcOf i) m k' = source (funcOf i) m k := by
  cases hf : funcOf i with
  | hmac => obtain ⟨hkl, hk, -⟩ := h.key hf; exact ⟨k, keyBytes_hmac_eq_some.mpr ⟨hkl, hk⟩, rfl⟩
  | none | sha1 => exact ⟨[], rfl, rfl⟩

/-- Only RADIX's encoder looks at the alphabet (R212), and a is it. -/
theorem Consumes.exists_alphabet {i : Instr} {s : State} {m k a : List Byte} (h : Consumes i s m k a) :
    ∃ a', s.alphabet (encOf i) = some a' ∧ ∀ cfg, encodeOut (encOf i) cfg a' = encodeOut (encOf i) cfg a := by
  cases he : encOf i with
  | radix => obtain ⟨hal, ha, -⟩ := h.alpha he; exact ⟨a, alphabet_radix_eq_some.mpr ⟨hal, ha⟩, fun _ => rfl⟩
  | raw | hex | b64 => exact ⟨[], rfl, fun _ => rfl⟩

/-- A command delivers the encoding of its source where its output fits in OUT (R210 to R212). -/
theorem Consumes.delivers {i : Instr} {s : State} {m k a : List Byte} (h : Consumes i s m k a)
    (hout : encLen (encOf i) (sourceLen (funcOf i) m.length) a.length ≤ s.caps.outCap) :
    Delivers i s (encodeOut (encOf i) s.operands.cfg a (source (funcOf i) m k).1) (source (funcOf i) m k).2 := by
  obtain ⟨hml, hm, -⟩ := h.msg
  obtain ⟨k', hk, hsource⟩ := h.exists_keyBytes
  obtain ⟨a', ha, hencode⟩ := h.exists_alphabet
  rw [← hsource, ← hencode]
  exact delivers_of_operands (h.checks_pass hout) (message_eq_some.mpr ⟨hml, hm⟩) hk ha

/-- A command that encodes a digest delivers it in every legal OUT (R246). -/
theorem Consumes.delivers_digest {i : Instr} {s : State} {m k a : List Byte} (h : Consumes i s m k a)
    (hf : funcOf i ≠ .none) (hc : s.caps.legal = true) :
    Delivers i s (encodeOut (encOf i) s.operands.cfg a (source (funcOf i) m k).1) (source (funcOf i) m k).2 :=
  h.delivers (encLen_digest_le_outCap hc hf _ _ _)

/-! O8 to O16: the commands that use no alphabet, by their FUNC (R213 to R221). An operand that a command does not
consume is given as []. -/

/-- FUNC = NONE without an alphabet: MSG_RANGE, else OUT_RANGE, and the encoding of the message. -/
theorem raises_and_delivers_of_none {i : Instr} (hf : funcOf i = .none) (he : encOf i ≠ .radix) (s : State) :
    (∀ e, Raises i s e ↔
      (e = .msgRange ∧ s.caps.msgCap < s.msgCount) ∨
      (e = .outRange ∧ s.msgCount ≤ s.caps.msgCap ∧ s.caps.outCap < encLen (encOf i) s.msgCount s.radix)) ∧
    ∀ m, m.length = s.msgCount → Holds s.msg m → m.length ≤ s.caps.msgCap →
      encLen (encOf i) m.length 0 ≤ s.caps.outCap →
      Delivers i s (encodeOut (encOf i) s.operands.cfg [] m) none := by
  refine ⟨fun e => ?_, fun m hl hm hcap hout => ?_⟩
  · simp [raises_iff_of_none hf, he]
  · have hops : Consumes i s m [] [] := ⟨⟨hl, hm, hcap⟩, by simp [hf], fun h => absurd h he⟩
    simpa only [hf, source] using hops.delivers (by rw [hf]; exact hout)

/-- FUNC = SHA1 without an alphabet: MSG_RANGE, and the encoding of the message's digest. -/
theorem raises_and_delivers_of_sha1 {i : Instr} (hf : funcOf i = .sha1) (he : encOf i ≠ .radix)
    {s : State} (hc : s.caps.legal = true) :
    (∀ e, Raises i s e ↔ e = .msgRange ∧ s.caps.msgCap < s.msgCount) ∧
    ∀ m, m.length = s.msgCount → Holds s.msg m → m.length ≤ s.caps.msgCap →
      Delivers i s (encodeOut (encOf i) s.operands.cfg [] (digestBytes (sha1Digest m))) (some (sha1Digest m)) := by
  have hdigest : funcOf i ≠ .none := by rw [hf]; exact nofun
  refine ⟨fun e => ?_, fun m hl hm hcap => ?_⟩
  · simp [raises_iff_of_digest hdigest hc, hf, he]
  · have hops : Consumes i s m [] [] := ⟨⟨hl, hm, hcap⟩, by simp [hf], fun h => absurd h he⟩
    simpa only [hf, source] using hops.delivers_digest hdigest hc

/-- FUNC = HMAC without an alphabet: MSG_RANGE, else KEY_RANGE, and the encoding of the digest under the key. -/
theorem raises_and_delivers_of_hmac {i : Instr} (hf : funcOf i = .hmac) (he : encOf i ≠ .radix)
    {s : State} (hc : s.caps.legal = true) :
    (∀ e, Raises i s e ↔
      (e = .msgRange ∧ s.caps.msgCap < s.msgCount) ∨
      (e = .keyRange ∧ s.msgCount ≤ s.caps.msgCap ∧ s.caps.keyCap < s.keyCount)) ∧
    ∀ m k, m.length = s.msgCount → Holds s.msg m → m.length ≤ s.caps.msgCap →
      k.length = s.keyCount → Holds s.key k → k.length ≤ s.caps.keyCap →
      Delivers i s (encodeOut (encOf i) s.operands.cfg [] (digestBytes (hmacSha1 k m))) (some (hmacSha1 k m)) := by
  have hdigest : funcOf i ≠ .none := by rw [hf]; exact nofun
  refine ⟨fun e => ?_, fun m k hl hm hcap hkl hk hkcap => ?_⟩
  · simp [raises_iff_of_digest hdigest hc, hf, he]
  · have hops : Consumes i s m k [] := ⟨⟨hl, hm, hcap⟩, fun _ => ⟨hkl, hk, hkcap⟩, fun h => absurd h he⟩
    simpa only [hf, source] using hops.delivers_digest hdigest hc

/-- Settles O8: the encoding is the message itself. -/
theorem copyCopiesTheMessage : Obligations.CopyCopiesTheMessage :=
  ⟨rfl, raises_and_delivers_of_none rfl (by decide)⟩

/-- Settles O9: the encoding is the digest's bytes. -/
theorem sha1HashesTheMessage : Obligations.Sha1HashesTheMessage :=
  ⟨rfl, fun _ => raises_and_delivers_of_sha1 rfl (by decide)⟩

/-- Settles O10: the encoding is the digest's bytes. -/
theorem hmacAuthenticatesTheMessage : Obligations.HmacAuthenticatesTheMessage :=
  ⟨rfl, fun _ => raises_and_delivers_of_hmac rfl (by decide)⟩

/-- Settles O11: the encoding is hex, 2n bytes. -/
theorem hexEncodesTheMessage : Obligations.HexEncodesTheMessage :=
  ⟨rfl, raises_and_delivers_of_none rfl (by decide)⟩

/-- Settles O12: the encoding is hex. -/
theorem sha1HexEncodesTheDigest : Obligations.Sha1HexEncodesTheDigest :=
  ⟨rfl, fun _ => raises_and_delivers_of_sha1 rfl (by decide)⟩

/-- Settles O13: the encoding is hex. -/
theorem hmacHexEncodesTheDigest : Obligations.HmacHexEncodesTheDigest :=
  ⟨rfl, fun _ => raises_and_delivers_of_hmac rfl (by decide)⟩

/-- Settles O14: the encoding is base64, 4 ceil(n/3) bytes. -/
theorem b64EncodesTheMessage : Obligations.B64EncodesTheMessage :=
  ⟨rfl, raises_and_delivers_of_none rfl (by decide)⟩

/-- Settles O15: the encoding is base64. -/
theorem sha1B64EncodesTheDigest : Obligations.Sha1B64EncodesTheDigest :=
  ⟨rfl, fun _ => raises_and_delivers_of_sha1 rfl (by decide)⟩

/-- Settles O16: the encoding is base64. -/
theorem hmacB64EncodesTheDigest : Obligations.HmacB64EncodesTheDigest :=
  ⟨rfl, fun _ => raises_and_delivers_of_hmac rfl (by decide)⟩

/-! O17 to O19: the commands that use an alphabet (R222 to R224). -/

/-- Settles O17: ALPHA_RANGE stands before OUT_RANGE, and the output is FullLen(n, r) bytes. -/
theorem radixEncodesTheMessage : Obligations.RadixEncodesTheMessage := by
  refine ⟨rfl, fun s => ⟨fun e => ?_, fun m a hl hm hcap hal ha h2 h256 hout => ?_⟩⟩
  · rw [raises_iff_of_none (i := .radix) rfl]
    simp [encOf, encLen, and_assoc]
  · exact Consumes.delivers (i := .radix) (k := []) ⟨⟨hl, hm, hcap⟩, nofun, fun _ => ⟨hal, ha, h2, h256⟩⟩ hout

/-- Settles O18: no key is checked, and the digest's output always fits. -/
theorem sha1RadixEncodesTheDigest : Obligations.Sha1RadixEncodesTheDigest := by
  refine ⟨rfl, fun s hc => ⟨fun e => ?_, fun m a hl hm hcap hal ha h2 h256 => ?_⟩⟩
  · rw [raises_iff_of_digest (i := .sha1Radix) nofun hc]
    simp [funcOf, encOf]
  · exact Consumes.delivers_digest (i := .sha1Radix) (k := [])
      ⟨⟨hl, hm, hcap⟩, nofun, fun _ => ⟨hal, ha, h2, h256⟩⟩ nofun hc

/-- Settles O19: all three operands are checked, and the digest's output always fits. -/
theorem hmacRadixEncodesTheDigest : Obligations.HmacRadixEncodesTheDigest := by
  refine ⟨rfl, fun s hc => ⟨fun e => ?_, fun m k a hl hm hcap hkl hk hkcap hal ha h2 h256 => ?_⟩⟩
  · rw [raises_iff_of_digest (i := .hmacRadix) nofun hc]
    simp [funcOf, encOf]
  · exact Consumes.delivers_digest (i := .hmacRadix)
      ⟨⟨hl, hm, hcap⟩, fun _ => ⟨hkl, hk, hkcap⟩, fun _ => ⟨hal, ha, h2, h256⟩⟩ nofun hc

/-! O35: two completions on the same operands (R226). -/

/-- The bytes from index 0 on depend on themselves alone. -/
theorem readRange_zero_congr {m m' : Memory} {n : Nat} (h : ∀ j, j < n → Memory.read m' j = Memory.read m j) :
    Memory.readRange m' 0 n = Memory.readRange m 0 n :=
  Memory.readRange_congr fun k hk => by rw [Nat.zero_add]; exact h k hk

/-- The source stage gives no digest for FUNC = NONE alone (R211). -/
theorem source_snd_eq_none {f : Func} {m k : List Byte} (h : (source f m k).2 = none) : f = .none := by
  cases f with
  | none => rfl
  | sha1 | hmac => cases h

/-- A completion whose checks pass faults where one of its operands has no value (R255). -/
theorem runCommand_of_unwritten {f : Func} {e : Enc} {s : State} (hr : s.rangeError f e = none)
    (h : s.message = none ∨ s.keyBytes f = none ∨ s.alphabet e = none) :
    runCommand f e s = .fault .unwrittenOperand := by
  rcases runCommand_cases f e s with ⟨_, herr, -⟩ | ⟨-, m, k, a, hm, hk, ha, -⟩ | ⟨-, -, hfault⟩
  · rw [hr] at herr; cases herr
  · simp [hm, hk, ha] at h
  · exact hfault

section
variable {i : Instr} {s t : State} (h : SameOperands i s t)
include h

/-- The same operands give the same message (R95). -/
theorem SameOperands.message_eq : t.message = s.message := by
  rw [State.message, State.message, (operands_congr h.operands).1]
  exact readRange_zero_congr h.msg

/-- The same operands give the same key, where one is consumed (R95). -/
theorem SameOperands.keyBytes_eq : t.keyBytes (funcOf i) = s.keyBytes (funcOf i) := by
  cases hf : funcOf i with
  | hmac =>
    rw [State.keyBytes, State.keyBytes, (operands_congr h.operands).2.1]
    exact readRange_zero_congr (h.key hf)
  | none | sha1 => rfl

/-- The same operands give the same alphabet, where one is consumed (R95). -/
theorem SameOperands.alphabet_eq : t.alphabet (encOf i) = s.alphabet (encOf i) := by
  cases he : encOf i with
  | radix =>
    rw [State.alphabet, State.alphabet, (operands_congr h.operands).2.2]
    exact readRange_zero_congr (h.alpha he)
  | raw | hex | b64 => rfl

/-- The completions on the same operands end alike: with the same error, with the same output and digest, or both in a
fault (R226). -/
theorem SameOperands.exec_cases :
    (∃ e, exec i s = .next (s.raiseCmdError e) ∧ exec i t = .next (t.raiseCmdError e)) ∨
    (∃ o hd, (hd = none → funcOf i = .none) ∧ exec i s = .next (s.commit o hd) ∧ exec i t = .next (t.commit o hd)) ∨
    (exec i s = .fault .unwrittenOperand ∧ exec i t = .fault .unwrittenOperand) := by
  simp only [exec_eq_runCommand]
  have hrange := rangeError_congr h.operands h.caps (funcOf i) (encOf i)
  rcases runCommand_cases (funcOf i) (encOf i) s with
    ⟨e, hr, hs⟩ | ⟨hr, m, k, a, hm, hk, ha, hs⟩ | ⟨hr, hnone, hs⟩
  · refine .inl ⟨e, hs, ?_⟩
    rw [runCommand, hrange, hr]
  · refine .inr (.inl ⟨_, _, source_snd_eq_none, hs, ?_⟩)
    rw [runCommand, hrange, hr, h.message_eq, hm, h.keyBytes_eq, hk, h.alphabet_eq, ha, ← h.operands]
    rfl
  · refine .inr (.inr ⟨hs, ?_⟩)
    rw [← h.message_eq, ← h.keyBytes_eq, ← h.alphabet_eq] at hnone
    exact runCommand_of_unwritten (hrange.trans hr) hnone

end

/-- Two failures with the same error show the same STATUS fields (R248). -/
theorem Failed.status_eq {s t s' t' : State} {e : CmdError} (hs : Failed s s' e) (ht : Failed t t' e) :
    statusBusy s'.status = statusBusy t'.status ∧ statusDone s'.status = statusDone t'.status ∧
      statusErr s'.status = statusErr t'.status ∧ statusErrCode s'.status = statusErrCode t'.status :=
  ⟨hs.busy.trans ht.busy.symm, hs.done.trans ht.done.symm, hs.err.trans ht.err.symm, hs.errCode.trans ht.errCode.symm⟩

/-- Two commits of the same output show the same STATUS fields (R225). -/
theorem Committed.status_eq {s t s' t' : State} {o : List Byte} {hd : Option Digest} (hs : Committed s s' o hd)
    (ht : Committed t t' o hd) :
    statusBusy s'.status = statusBusy t'.status ∧ statusDone s'.status = statusDone t'.status ∧
      statusErr s'.status = statusErr t'.status ∧ statusErrCode s'.status = statusErrCode t'.status :=
  ⟨hs.busy.trans ht.busy.symm, hs.done.trans ht.done.symm, hs.err.trans ht.err.symm, hs.errCode.trans ht.errCode.symm⟩

/-- Two commits of the same output leave the same OUT[0..OUT_LEN) (R225). -/
theorem Committed.out_eq {s t s' t' : State} {o : List Byte} {hd : Option Digest} (hs : Committed s s' o hd)
    (ht : Committed t t' o hd) {j : Nat} (hj : j < s'.outLen.toNat) :
    Memory.read s'.out j = Memory.read t'.out j := by
  have hlen : s'.outLen.toNat ≤ o.length := by rw [hs.outLen, BitVec.toNat_ofNat]; exact Nat.mod_le _ _
  have hjo : j < o.length := hj.trans_le hlen
  rw [hs.out j hjo, ht.out j hjo]

/-- Two commits of the same digest, where there is one, leave it in DIGEST (R225). -/
theorem Committed.digest_eq {s t s' t' : State} {o : List Byte} {hd : Option Digest} (hs : Committed s s' o hd)
    (ht : Committed t t' o hd) (hsome : hd ≠ none) : s'.digest = t'.digest := by
  obtain ⟨d, rfl⟩ := Option.ne_none_iff_exists'.mp hsome
  exact hs.digest.trans ht.digest.symm

/-- Settles O35: both completions raise the same error, commit the same output and digest, or fault. -/
theorem resultsDependOnOperandsAlone : Obligations.ResultsDependOnOperandsAlone := by
  intro i s t h
  rcases h.exec_cases with ⟨e, hs, ht⟩ | ⟨o, hd, hnone, hs, ht⟩ | ⟨hs, ht⟩
  · rw [hs, ht]
    refine ⟨fun f => by simp, ?_⟩
    rintro _ _ ⟨⟩ ⟨⟩
    have hfs := raiseCmdError_failed s e
    obtain ⟨hbusy, hdone, herr, hcode⟩ := hfs.status_eq (raiseCmdError_failed t e)
    exact ⟨hbusy, hdone, herr, hcode, fun hok => absurd (hfs.err.symm.trans hok) nofun⟩
  · rw [hs, ht]
    refine ⟨fun f => by simp, ?_⟩
    rintro _ _ ⟨⟩ ⟨⟩
    have hcs := commit_committed s o hd
    have hct := commit_committed t o hd
    obtain ⟨hbusy, hdone, herr, hcode⟩ := hcs.status_eq hct
    exact ⟨hbusy, hdone, herr, hcode, fun _ =>
      ⟨hcs.outLen.trans hct.outLen.symm, fun j hj => hcs.out_eq hct hj, fun hf => hcs.digest_eq hct (mt hnone hf)⟩⟩
  · rw [hs, ht]
    exact ⟨fun f => Iff.rfl, nofun⟩

end Sys2Proof.Machine
end
section
/-! PROOFS. The exception family (spec 60_exceptions R240 to R255): how a completion ends, the two stops of a run, and that
a transaction in the busy window does not change the end. -/

namespace Sys2Proof.Machine

/-! O4: an illegal command word (R242). -/

/-- A word whose RES is not 0 or whose FUNC is the reserved value decodes to no command (R94). -/
theorem exists_decode_eq_error {w : Word} (h : wordRes w ≠ 0#28 ∨ wordFunc w = 3#2) : ∃ e, decode w = .error e := by
  by_cases hres : wordRes w = 0#28
  · exact ⟨_, decode_of_reservedFunc hres (h.resolve_left (not_not_intro hres))⟩
  · exact ⟨_, decode_of_reservedBits hres⟩

/-- The completion step of a word that is no command raises ILLEGAL_CMD, whatever the operands (R242). -/
theorem completionStep_of_decode_error {s : State} {e : IllegalWord} (h : decode s.operands.cmd = .error e) :
    completionStep s = .next (s.raiseCmdError .illegalCmd) := by
  simp only [completionStep, h]

/-- While BUSY = 0 a word read of offset 0x10 answers CMD (R26). -/
theorem busRead_cmd {s : State} (hb : s.busy = false) : busRead s 0x10#32 4 = some (.read .okay s.cmd) :=
  busRead_reg s 0x10#32 (by decide) (by decide) (.inl hb)

/-- Settles O4: the illegal word's error leaves CMD, which BUSY = 0 then lets the host read. -/
theorem illegalWordEndsInIllegalCmd : Obligations.IllegalWordEndsInIllegalCmd := by
  intro s h
  obtain ⟨_, he⟩ := exists_decode_eq_error h
  have hf := raiseCmdError_failed s .illegalCmd
  exact ⟨_, completionStep_of_decode_error he, hf, busRead_cmd hf.busy⟩

/-! O5: the first failing check (R247). -/

/-- |S| is n for FUNC = NONE and a digest's 20 bytes otherwise (R210). -/
theorem sourceLen_eq_ite (f : Func) (n : Nat) : sourceLen f n = if f = .none then n else 20 := by
  cases f <;> rfl

/-- Settles O5: a legal command raises the first failing check, which is not OUT_RANGE where a digest is encoded. -/
theorem firstFailingCheckIsRaised : Obligations.FirstFailingCheckIsRaised := by
  intro s
  refine ⟨fun h => ?_, fun i hi => ?_⟩
  · obtain ⟨t, ht, hf, -⟩ := illegalWordEndsInIllegalCmd s h
    exact ⟨t, ht, hf⟩
  · rw [completionStep_of_decode hi]
    refine ⟨fun e => ?_, fun hc hf hout => ?_⟩
    · rw [← sourceLen_eq_ite]
      exact raises_iff_rangeError i s e
    · rcases (raises_iff_of_digest hf hc).mp hout with ⟨he, -⟩ | ⟨he, -⟩ | ⟨he, -⟩ <;> cases he

/-! O6: the two ends of a completion (R240). -/

/-- The source stage gives no digest exactly for FUNC = NONE (R211). -/
theorem source_snd_eq_none_iff {f : Func} {m k : List Byte} : (source f m k).2 = none ↔ f = .none :=
  ⟨source_snd_eq_none, by rintro rfl; rfl⟩

/-- The output of a command whose checks pass has the length R246 computed in advance (R193). -/
theorem output_length {s : State} {f : Func} {e : Enc} {m a : List Byte} (k : List Byte)
    (hr : s.rangeError f e = none) (hm : s.message = some m) (ha : s.alphabet e = some a) (cfg : Word) :
    (encodeOut e cfg a (source f m k).1).length = encLen e (sourceLen f s.msgCount) s.radix := by
  obtain ⟨-, -, hrange, -⟩ := rangeError_eq_none.mp hr
  have hradix (he : e = .radix) : a.length = s.radix := by
    subst he; exact (alphabet_radix_eq_some.mp ha).1
  rw [encodeOut_length e cfg a _ fun he => hradix he ▸ (hrange he).1, source_length, (message_eq_some.mp hm).1,
    encLen_congr hradix]

/-- Settles O6: of the three ends of a command, a next state is the error's or the commit's. -/
theorem everyCompletionFailsOrCommits : Obligations.EveryCompletionFailsOrCommits := by
  intro i s t h
  rw [exec_eq_runCommand] at h
  rcases runCommand_cases (funcOf i) (encOf i) s with ⟨e, -, hend⟩ | ⟨hr, m, k, a, hm, -, ha, hend⟩ | ⟨-, -, hend⟩
  · cases hend.symm.trans h
    exact .inl ⟨e, raiseCmdError_failed s e⟩
  · cases hend.symm.trans h
    exact .inr ⟨_, _, commit_committed s _ _, output_length k hr hm ha _, source_snd_eq_none_iff⟩
  · cases hend.symm.trans h

/-! O7: the stop at an unwritten operand (R255 (a)). -/

/-- The bytes from index 0 on have no value exactly when one of them was never written (R41). -/
theorem readRange_zero_eq_none {m : Memory} {n : Nat} :
    Memory.readRange m 0 n = none ↔ ∃ j, j < n ∧ Memory.read m j = none := by
  simp only [Memory.readRange_eq_none, Nat.zero_add]

/-- The message has no value exactly when a byte of MSG[0..n) was never written (R95). -/
theorem message_eq_none {s : State} : s.message = none ↔ ∃ j, j < s.msgCount ∧ Memory.read s.msg j = none :=
  readRange_zero_eq_none

/-- The key has no value exactly when HMAC consumes it and a byte of KEY[0..k) was never written (R95). -/
theorem keyBytes_eq_none {s : State} {f : Func} :
    s.keyBytes f = none ↔ f = .hmac ∧ ∃ j, j < s.keyCount ∧ Memory.read s.key j = none := by
  cases f with
  | hmac => exact readRange_zero_eq_none.trans (iff_and_self.mpr fun _ => rfl)
  | none | sha1 => exact ⟨nofun, nofun⟩

/-- The alphabet has no value exactly when RADIX consumes it and a byte of ALPHA[0..r) was never written (R95). -/
theorem alphabet_eq_none {s : State} {e : Enc} :
    s.alphabet e = none ↔ e = .radix ∧ ∃ j, j < s.radix ∧ Memory.read s.alpha j = none := by
  cases e with
  | radix => exact readRange_zero_eq_none.trans (iff_and_self.mpr fun _ => rfl)
  | raw | hex | b64 => exact ⟨nofun, nofun⟩

/-- A completion stops exactly when every check passes and an operand it consumes has no value (R210, R255). -/
theorem runCommand_eq_fault {f : Func} {e : Enc} {s : State} {r : Fault} :
    runCommand f e s = .fault r ↔ r = .unwrittenOperand ∧ s.rangeError f e = none ∧
      (s.message = none ∨ s.keyBytes f = none ∨ s.alphabet e = none) := by
  refine ⟨fun h => ?_, fun ⟨hr, hrange, hnone⟩ => hr ▸ runCommand_of_unwritten hrange hnone⟩
  rcases runCommand_cases f e s with ⟨_, -, hend⟩ | ⟨-, _, _, _, -, -, -, hend⟩ | ⟨hrange, hnone, hend⟩
  · cases hend.symm.trans h
  · cases hend.symm.trans h
  · cases hend.symm.trans h
    exact ⟨rfl, hrange, hnone⟩

/-- Every check passes exactly when no error is raised (R247). -/
theorem rangeError_eq_none_iff_not_raises {i : Instr} {s : State} :
    s.rangeError (funcOf i) (encOf i) = none ↔ ∀ e, ¬Raises i s e := by
  simp only [raises_iff_rangeError, Option.eq_none_iff_forall_ne_some, ne_eq]

/-- Settles O7: the operands have no value exactly where one of their bytes was never written. -/
theorem unwrittenOperandStopsTheRun : Obligations.UnwrittenOperandStopsTheRun := by
  intro i s f
  rw [exec_eq_runCommand, runCommand_eq_fault, rangeError_eq_none_iff_not_raises, message_eq_none, keyBytes_eq_none,
    alphabet_eq_none]

/-! O30: the stop at an unwritten read (R255 (b)). -/

/-- A read stops the run exactly when it has no response. -/
theorem perform_read_faults_iff {s : State} {a : Word} {n : Nat} :
    (∃ f, perform s (.read a n) = .fault f) ↔ busRead s a n = none := by
  rw [perform]
  cases busRead s a n with
  | none => exact ⟨fun _ => rfl, fun _ => ⟨_, rfl⟩⟩
  | some r => exact ⟨nofun, nofun⟩

/-- A place has no value exactly when it covers a byte of MSG, ALPHA or OUT never written: registers always have one, and
KEY reads as 0 (R67). -/
theorem readPlace_eq_none {s : State} {n : Nat} {p : Place} :
    readPlace s n p = none ↔
      ∃ b o, p = .buf b o ∧ b ≠ .key ∧ ∃ k, k < n ∧ Memory.read (s.buf b) (o + k) = none := by
  cases p with
  | reg off => exact ⟨nofun, nofun⟩
  | buf b o =>
    by_cases hk : b = .key
    · subst hk
      refine ⟨nofun, ?_⟩
      rintro ⟨_, _, ⟨⟩, hne, -⟩
      exact absurd rfl hne
    · rw [readPlace_buf hk, Option.map_eq_none_iff, Memory.readRange_eq_none]
      refine ⟨fun h => ⟨b, o, rfl, hk, h⟩, ?_⟩
      rintro ⟨_, _, ⟨⟩, -, h⟩
      exact h

/-- A read has no response exactly when BUSY = 0, it passes the decode check and its place has no value: what reads normally
while BUSY = 1 is a register (R72). -/
theorem busRead_eq_none {s : State} {a : Word} {n : Nat} :
    busRead s a n = none ↔ s.busy = false ∧ ∃ p, busCheck s false a n = .ok p ∧ readPlace s n p = none := by
  cases hcheck : busCheck s false a n with
  | error e => rw [busRead, hcheck]; exact ⟨nofun, nofun⟩
  | ok p =>
    rw [busRead_of_check hcheck]
    cases p with
    | reg off =>
      refine ⟨fun h => ?_, ?_⟩
      · split at h <;> cases h
      · rintro ⟨-, _, ⟨⟩, ⟨⟩⟩
    | buf b o => cases s.busy <;> simp [Place.readsWhileBusy]

/-- Which transactions read offset o of a buffer: those that R62 does not refuse and whose address it is (R61). -/
theorem busCheck_eq_buf_iff {s : State} {a : Word} {n : Nat} {b : Buf} {o : Nat} (hc : s.caps.legal = true) :
    busCheck s false a n = .ok (.buf b o) ↔
      ¬BadAccess s a n ∧ bufBase b ≤ a.toNat ∧ a.toNat < bufBase b + s.bufCap b ∧ o = a.toNat - bufBase b := by
  constructor
  · intro h
    refine ⟨fun hbad => ?_, ?_⟩
    · obtain ⟨e, he⟩ := (busCheck_error_iff (w := false) hc).mpr (.inl hbad)
      cases he.symm.trans h
    · obtain ⟨hloc, -⟩ := busCheck_ok h
      rcases locate_cases hloc with ⟨-, hp⟩ | ⟨_, hp, hbase, hlt⟩
      · cases hp
      · cases hp
        exact ⟨hbase, by omega, rfl⟩
  · rintro ⟨hgood, hbase, hlt, rfl⟩
    obtain ⟨p, hp⟩ := busCheck_of_not_bad (w := false) hc hgood nofun
    obtain ⟨hloc, -⟩ := busCheck_ok hp
    cases (locate_buf hc hbase hlt).symm.trans hloc
    exact hp

/-- Settles O30: a read without a response is one of a buffer's place, and a write always has its response. -/
theorem unwrittenReadStopsTheRun : Obligations.UnwrittenReadStopsTheRun := by
  refine fun s a n hc => ⟨?_, fun _ => ⟨_, rfl⟩⟩
  rw [perform_read_faults_iff, busRead_eq_none]
  refine and_congr_right fun _ => ?_
  simp only [readPlace_eq_none]
  constructor
  · rintro ⟨_, hcheck, b, o, rfl, hkey, k, hk, hread⟩
    obtain ⟨hgood, hbase, hlt, rfl⟩ := (busCheck_eq_buf_iff hc).mp hcheck
    exact ⟨hgood, b, k, hkey, hbase, hlt, hk, hread⟩
  · rintro ⟨hgood, b, k, hkey, hbase, hlt, hk, hread⟩
    exact ⟨_, (busCheck_eq_buf_iff hc).mpr ⟨hgood, hbase, hlt, rfl⟩, b, _, rfl, hkey, k, hk, hread⟩

/-! O36: a transaction in the busy window (R250). -/

/-- STATUS and what the host has observed are no operands of a command (R95). -/
theorem sameOperands_status_log (i : Instr) (s : State) (w : Word) (l : List Response) :
    SameOperands i s { s with status := w, log := l } :=
  ⟨rfl, rfl, fun _ _ => rfl, fun _ _ _ => rfl, fun _ _ _ => rfl⟩

/-- Where a completion answers a next state, it ends with the same error or the same commit from another STATUS and other
observations. -/
theorem completionStep_status_log_cases {s t : State} (h : completionStep s = .next t) (w : Word) (l : List Response) :
    (∃ e, t = s.raiseCmdError e ∧
      completionStep { s with status := w, log := l } = .next (State.raiseCmdError { s with status := w, log := l } e)) ∨
    ∃ o hd, t = s.commit o hd ∧
      completionStep { s with status := w, log := l } = .next (State.commit { s with status := w, log := l } o hd) := by
  have hops : State.operands { s with status := w, log := l } = s.operands := rfl
  cases hdec : decode s.operands.cmd with
  | error _ =>
    rw [completionStep_of_decode_error hdec] at h
    cases h
    exact .inl ⟨_, rfl, completionStep_of_decode_error (hops ▸ hdec)⟩
  | ok i =>
    rw [completionStep_of_decode hdec] at h
    rw [completionStep_of_decode (hops ▸ hdec)]
    rcases (sameOperands_status_log i s w l).exec_cases with ⟨e, hs, hu⟩ | ⟨o, hd, -, hs, hu⟩ | ⟨hs, -⟩
    · cases hs.symm.trans h
      exact .inl ⟨e, rfl, hu⟩
    · cases hs.symm.trans h
      exact .inr ⟨o, hd, rfl, hu⟩
    · cases hs.symm.trans h

/-- Settles O36: the transaction changes BUSYERR at most, on which nothing but BUSYERR of the end depends. -/
theorem busyTransactionsDoNotAffectTheCommand : Obligations.BusyTransactionsDoNotAffectTheCommand := by
  intro s u t x hb hx hs
  obtain ⟨_, r, heff, rfl⟩ := perform_effect hx
  obtain ⟨w, rfl, -, hbits⟩ := heff.of_busy hb
  rcases completionStep_status_log_cases hs w (r :: s.log) with ⟨e, rfl, hu⟩ | ⟨o, hd, rfl, hu⟩
  · exact ⟨_, hu, rfl, rfl, rfl, rfl, rfl, rfl, rfl, rfl, rfl, rfl, rfl, statusOnFinish_congr hbits _ _⟩
  · exact ⟨_, hu, rfl, rfl, rfl, rfl, rfl, rfl, rfl, rfl, rfl, rfl, rfl, statusOnFinish_congr hbits _ _⟩

end Sys2Proof.Machine
end

section
/-! PROOFS. The reset and hazards family (spec 70_reset R270 to R281): the state right after reset, the platform's reset from
any state, and that host turns in the busy window delay the completion but do not touch its command. -/

namespace Sys2Proof.Machine

/-! O45: host turns before the engine's. -/

/-- A run of k + 1 steps that answers a next state has a first step that does. -/
theorem exists_step_of_run_succ {M : Host.Core} {k : Nat} {s u : M.State} (h : M.run (k + 1) s = .next u) :
    ∃ s', M.step s = .next s' ∧ M.run k s' = .next u := by
  cases hs : M.step s with
  | next s' => exact ⟨s', rfl, run_succ_next hs ▸ h⟩
  | fault f => rw [run_succ_fault hs] at h; cases h
  | refused r => simp only [Host.Core.run, hs] at h; cases h

/-- A run of host turns alone leaves the command in flight with its operands, and next the turns that follow (R74, R250). -/
theorem run_host_turns_of_busy {n : Nat} {ts : List Turn} {s u : State} (hb : s.busy = true)
    (hts : s.turns = List.replicate n .host ++ ts) (h : Host.Core.run Sys2Proof.core n s = .next u) :
    u.busy = true ∧ u.turns = ts ∧ u.operands = s.operands := by
  induction n generalizing s with
  | zero => cases h; exact ⟨hb, hts, rfl⟩
  | succ n ih =>
    obtain ⟨s', hstep, hrun⟩ := exists_step_of_run_succ h
    have hhost := (step_of_host_turn hts).symm.trans hstep
    obtain ⟨hb', hts', hops'⟩ := hostStep_of_busy (s := { s with turns := List.replicate n .host ++ ts }) hb hhost
    obtain ⟨hbu, htsu, hopsu⟩ := ih hb' hts' hrun
    exact ⟨hbu, htsu, hopsu.trans hops'⟩

/-- Settles O45: after the host turns the engine's turn stands first (log 1) and the command is still in flight, so the step is
its completion (O3), which ends with BUSY = 0. -/
theorem completionFollowsAnyHostTurns : Obligations.CompletionFollowsAnyHostTurns := by
  intro n s u hb hts h
  obtain ⟨hbu, htsu, hops⟩ := run_host_turns_of_busy hb hts h
  obtain ⟨-, hengine, -⟩ := stepRunsTheLatchedCommand u hbu
  have hstep := hengine [] htsu
  exact ⟨hbu, htsu, hops, hstep, fun t ht => (completionStep_idle (hstep.symm.trans ht)).2⟩

/-! O41: the invariants right after reset. -/

/-- No buffer lists a byte right after reset (R270, R271). -/
@[simp] theorem State.reset_buf (b : Buf) : State.reset.buf b = [] := by cases b <;> rfl

@[simp] theorem State.reset_busy : State.reset.busy = false := by decide

theorem caps_ref_legal : Config.ref.legal = true := by decide

/-- The capacities of REF are legal, no byte is listed, and OUT_LEN = 0 claims none (R8, R37, R270). -/
theorem State.reset_buffersOk : BuffersOk State.reset := by
  refine ⟨caps_ref_legal, fun b => ⟨State.reset_buf_wf b, ?_⟩, Nat.zero_le _, fun i hi => absurd hi i.not_lt_zero⟩
  rw [State.reset_buf]
  exact fun c hc => absurd hc List.not_mem_nil

/-- Settles O41: STATUS and CFG hold what the platform's reset leaves, which O38 found legal; nothing is latched, and nothing
is written. -/
theorem resetSatisfiesTheInvariants : Obligations.ResetSatisfiesTheInvariants :=
  have hwords : StatusCfgOk State.reset := platformReset_statusCfgOk State.reset
  { status := hwords.1
    cfg := hwords.2
    latch := latchOk_of_idle rfl State.reset_busy
    buffers := State.reset_buffersOk }

/-! O42, O43: the values right after reset. -/

/-- A buffer that lists nothing has every written mark false (R41). -/
@[simp] theorem Memory.read_nil (i : Nat) : Memory.read [] i = none := rfl

/-- DIGEST is 0 right after reset (R38, R270). -/
@[simp] theorem digestWords_reset : digestWords State.reset.digest = [0#32, 0#32, 0#32, 0#32, 0#32] := rfl

/-- Settles O42: each register by its value in State.reset, and the two fields of CFG read from 0x3D00. -/
theorem resetLeavesTheSpecValues : Obligations.ResetLeavesTheSpecValues := by
  have hmarks (b : Buf) (i : Nat) : Memory.read (State.reset.buf b) i = none := by rw [State.reset_buf, Memory.read_nil]
  have hupper : cfgHexUpper State.reset.cfg = false := by decide
  have hpad : cfgPadChar State.reset.cfg = 0x3D#8 := by decide
  exact ⟨rfl, rfl, rfl, rfl, rfl, rfl, rfl, digestWords_reset, State.reset_busy, rfl, hmarks, hupper, hpad⟩

/-- No buffer lists a byte after the platform's reset (R270, R271). -/
@[simp] theorem State.platformReset_buf (s : State) (b : Buf) : s.platformReset.buf b = [] := by cases b <;> rfl

/-- Settles O43: the step is platformReset, whose fields the laws of the state give. -/
theorem platformResetFromAnyState : Obligations.PlatformResetFromAnyState := by
  intro s ts h
  exact ⟨_, step_of_reset_turn h, by simp⟩

end Sys2Proof.Machine
end
